-- ==== Sys2Proof/Word.lean ====
section
/-! DEFINITION. The plain value types of CORE: bytes on the transport, 16-bit register values, the bits of a
binary64 value, and the two types the spec leaves open (a transport handle and a transport error reason). -/

namespace Sys2Proof

/-- One byte of a transport frame (spec/20_memory.md R40). -/
abbrev Byte := BitVec 8

/-- One chip register value, 16 bits, bit 15 most significant (spec/00_scope.md R4, R10). -/
abbrev Word := BitVec 16

/-- The bits of an IEEE 754 binary64 value (R7); spec/95_test_vectors.md: "The bits are authoritative". -/
abbrev F64 := BitVec 64

/-- A transport handle: an opaque type of the spec, compared only for equality and passed through unchanged (R8).
The spec leaves the type OPEN; names stand for its values (DESIGN CHOICE, log 5, safe). -/
structure Handle where
  name : String
  deriving DecidableEq, Repr

/-- A transport error reason: an opaque type of the spec that contains `short_read(k)` for every natural k
(R8, R49, spec/92_eei_decisions.md D26). `external` names stand for the transport's own reasons
(DESIGN CHOICE, log 5, safe). -/
inductive TransportReason where
  | shortRead (received : Nat)
  | external (name : String)
  deriving DecidableEq, Repr

/-- The six chip registers by name (spec/10_state.md R32, spec/20_memory.md R42). The type has no other value, so a
register id outside 0 to 5 cannot be written (R59; DESIGN CHOICE, log 14, safe). -/
inductive RegId where
  | configuration
  | shuntVoltage
  | busVoltage
  | power
  | current
  | calibration
  deriving DecidableEq, Repr

/-- The two registers that are legal write targets (R43). The type has no other value, so a `MemWrite` of another
register cannot be written (R59; log 14). -/
inductive WritableReg where
  | configuration
  | calibration
  deriving DecidableEq, Repr

end Sys2Proof
end

