-- ==== Sys2Proof/Syntax.lean ====
section
/-! DEFINITION. The commands the host sends and the 25 operations they select: one constructor of `Instr` per row of
spec/opcode_table.json. -/

namespace Sys2Proof

/-- A numeric value kept as the host supplied it: an integer of any size or a binary64 value
(spec/10_state.md R24). That a stored binary64 value is finite is an invariant (`Safety.lean`). -/
inductive Num where
  | int (i : Int)
  | f64 (x : F64)
  deriving DecidableEq, Repr

/-- An operand slot of a command (spec/30_encoding.md R75, R83). -/
inductive Operand where
  | none
  | int (i : Int)
  | f64 (x : F64)
  | sym (name : String)
  | handle (h : Handle)
  deriving DecidableEq, Repr

/-- A command: the operation select and three operand slots (R75). -/
structure Command where
  opsel : Byte
  a : Operand
  b : Operand
  c : Operand
  deriving DecidableEq, Repr

/-- The 25 operations of R77, each with the operand slots it reads (R79); a slot it does not read is ignored (R75)
and is no argument of its constructor. -/
inductive Instr where
  | reset
  | getBrng
  | setBrng (a : Operand)
  | getPga
  | setPga (a : Operand)
  | getBadc
  | setBadc (a b : Operand)
  | getSadc
  | setSadc (a b : Operand)
  | getMode
  | setMode (a : Operand)
  | getCal
  | setCal (a : Operand)
  | getCdiv
  | setCdiv (a : Operand)
  | getPdiv
  | setPdiv (a : Operand)
  | shuntVoltage
  | busVoltage
  | convReady
  | mathOvf
  | current
  | power
  | construct (a b c : Operand)
  | release
  deriving DecidableEq, Repr

/-- What the host can do to CORE between operations (spec/70_reset_and_hazards.md R169): issue a command, or reset
the block. The handle and the divisors are supplied by commands. -/
inductive HostMove where
  | command (c : Command)
  | blockReset
  deriving DecidableEq, Repr

end Sys2Proof
end

