-- ==== Sys2Proof/Decode.lean ====
section
/-! DEFINITION. The operation-select map of spec/30_encoding.md R77: commands to instructions, and back. An unassigned
opsel is rejected by name; nothing else about a command is checked here (R75: the operation is selected by `opsel`
alone, and operands are read only as the operation's rule says). -/

namespace Sys2Proof

/-- Why a command selects no operation. -/
inductive DecodeReject where
  /-- The opsel is one of the 231 reserved values (R78). CORE refuses the command: `step` takes the refusal of R145. -/
  | unassignedOpsel (opsel : Byte)
  deriving DecidableEq, Repr

/-- The operation a command selects (R77), total on all 256 opsel values. -/
def decode (c : Command) : Except DecodeReject Instr :=
  match c.opsel with
  | 0x10#8 => .ok .reset
  | 0x11#8 => .ok .getBrng
  | 0x12#8 => .ok (.setBrng c.a)
  | 0x13#8 => .ok .getPga
  | 0x14#8 => .ok (.setPga c.a)
  | 0x15#8 => .ok .getBadc
  | 0x16#8 => .ok (.setBadc c.a c.b)
  | 0x17#8 => .ok .getSadc
  | 0x18#8 => .ok (.setSadc c.a c.b)
  | 0x19#8 => .ok .getMode
  | 0x1A#8 => .ok (.setMode c.a)
  | 0x20#8 => .ok .getCal
  | 0x21#8 => .ok (.setCal c.a)
  | 0x22#8 => .ok .getCdiv
  | 0x23#8 => .ok (.setCdiv c.a)
  | 0x24#8 => .ok .getPdiv
  | 0x25#8 => .ok (.setPdiv c.a)
  | 0x30#8 => .ok .shuntVoltage
  | 0x31#8 => .ok .busVoltage
  | 0x32#8 => .ok .convReady
  | 0x33#8 => .ok .mathOvf
  | 0x34#8 => .ok .current
  | 0x35#8 => .ok .power
  | 0x40#8 => .ok (.construct c.a c.b c.c)
  | 0x41#8 => .ok .release
  | op => .error (.unassignedOpsel op)

/-- The opsel values of R77. -/
def Instr.opsel : Instr → Byte
  | .reset => 0x10#8
  | .getBrng => 0x11#8
  | .setBrng _ => 0x12#8
  | .getPga => 0x13#8
  | .setPga _ => 0x14#8
  | .getBadc => 0x15#8
  | .setBadc _ _ => 0x16#8
  | .getSadc => 0x17#8
  | .setSadc _ _ => 0x18#8
  | .getMode => 0x19#8
  | .setMode _ => 0x1A#8
  | .getCal => 0x20#8
  | .setCal _ => 0x21#8
  | .getCdiv => 0x22#8
  | .setCdiv _ => 0x23#8
  | .getPdiv => 0x24#8
  | .setPdiv _ => 0x25#8
  | .shuntVoltage => 0x30#8
  | .busVoltage => 0x31#8
  | .convReady => 0x32#8
  | .mathOvf => 0x33#8
  | .current => 0x34#8
  | .power => 0x35#8
  | .construct _ _ _ => 0x40#8
  | .release => 0x41#8

/-- The operand slots a, b, c of an instruction; a slot it does not read is filled with `none` (DESIGN CHOICE,
log 13, safe). -/
def Instr.operands : Instr → Operand × Operand × Operand
  | .setBrng a => (a, .none, .none)
  | .setPga a => (a, .none, .none)
  | .setBadc a b => (a, b, .none)
  | .setSadc a b => (a, b, .none)
  | .setMode a => (a, .none, .none)
  | .setCal a => (a, .none, .none)
  | .setCdiv a => (a, .none, .none)
  | .setPdiv a => (a, .none, .none)
  | .construct a b c => (a, b, c)
  | .reset => (.none, .none, .none)
  | .getBrng => (.none, .none, .none)
  | .getPga => (.none, .none, .none)
  | .getBadc => (.none, .none, .none)
  | .getSadc => (.none, .none, .none)
  | .getMode => (.none, .none, .none)
  | .getCal => (.none, .none, .none)
  | .getCdiv => (.none, .none, .none)
  | .getPdiv => (.none, .none, .none)
  | .shuntVoltage => (.none, .none, .none)
  | .busVoltage => (.none, .none, .none)
  | .convReady => (.none, .none, .none)
  | .mathOvf => (.none, .none, .none)
  | .current => (.none, .none, .none)
  | .power => (.none, .none, .none)
  | .release => (.none, .none, .none)

/-- The command of an instruction: its opsel and its operands (R75, R77). -/
def encode (i : Instr) : Command :=
  { opsel := i.opsel, a := i.operands.1, b := i.operands.2.1, c := i.operands.2.2 }

/-- The command a bit pattern of the opcode table stands for. The table gives a row the 8 bits of opsel and its operand
slots no bits: they are `none`, the slot a command leaves empty (DESIGN CHOICE, log 12, safe). -/
def tableCommand (nbits w : Nat) : Command :=
  { opsel := BitVec.ofNat 8 (w % 2 ^ nbits), a := .none, b := .none, c := .none }

/-- The instruction the decoder reads from a bit pattern of the opcode table. -/
def decodeTableWord (nbits w : Nat) : Option Instr :=
  match decode (tableCommand nbits w) with
  | .ok i => some i
  | .error _ => none

end Sys2Proof
end

