-- ==== Sys2Proof/Machine/Fields.lean ====
section
/-! DEFINITION. The bit fields of the configuration register (spec/30_encoding.md R60, R62) and the two field
primitives (spec/40_config_codec.md R100, R101), and the configuration word as the record of its fields. -/

namespace Sys2Proof.Machine

/-- A field `hi:lo` of a 16-bit register: its low bit and its width, `hi - lo + 1`. -/
structure BitField where
  lo : Nat
  width : Nat
  deriving DecidableEq, Repr

/-- RST, bit 15 (R60). -/
abbrev fieldRst : BitField := ⟨15, 1⟩
/-- Bit 14, which the source does not name: never decoded, always preserved (R61). -/
abbrev fieldBit14 : BitField := ⟨14, 1⟩
/-- BRNG, bit 13. -/
abbrev fieldBrng : BitField := ⟨13, 1⟩
/-- PG, bits 12 to 11. -/
abbrev fieldPg : BitField := ⟨11, 2⟩
/-- BADC, bits 10 to 7. -/
abbrev fieldBadc : BitField := ⟨7, 4⟩
/-- SADC, bits 6 to 3. -/
abbrev fieldSadc : BitField := ⟨3, 4⟩
/-- MODE, bits 2 to 0. -/
abbrev fieldMode : BitField := ⟨0, 3⟩

/-- The seven fields, most significant first (R60). -/
def configFields : List BitField :=
  [fieldRst, fieldBit14, fieldBrng, fieldPg, fieldBadc, fieldSadc, fieldMode]

/-- The field's mask `(2^width - 1) << lo` (R62, R101). -/
def BitField.mask (f : BitField) : Word := BitVec.ofNat 16 ((2 ^ f.width - 1) * 2 ^ f.lo)

/-- `get_field(v, hi, lo)` = `(v >> lo) mod 2^(hi-lo+1)` (R100). -/
def getField (f : BitField) (v : Word) : BitVec f.width := BitVec.ofNat f.width (v.toNat >>> f.lo)

/-- `v{hi:lo} <- c` = `(v & ~mask) | (c << lo)` (R101). -/
def setField (f : BitField) (v : Word) (c : BitVec f.width) : Word :=
  (v &&& ~~~f.mask) ||| (c.setWidth 16 <<< f.lo)

/-- The value RESET writes: bit 15 set, bits 14 to 0 as read (R104). -/
def setResetBit (v : Word) : Word := v ||| 0x8000#16

/-- The configuration register as the record of its fields, bit 14 among them (R60, R61). -/
structure ConfigFields where
  rst : BitVec 1
  bit14 : BitVec 1
  brng : BitVec 1
  pg : BitVec 2
  badc : BitVec 4
  sadc : BitVec 4
  mode : BitVec 3
  deriving DecidableEq, Repr

/-- Every field of a configuration word. -/
def unpackConfig (v : Word) : ConfigFields :=
  { rst := getField fieldRst v
    bit14 := getField fieldBit14 v
    brng := getField fieldBrng v
    pg := getField fieldPg v
    badc := getField fieldBadc v
    sadc := getField fieldSadc v
    mode := getField fieldMode v }

/-- A configuration word from all of its fields, each set by R101. -/
def packConfig (c : ConfigFields) : Word :=
  setField fieldMode (setField fieldSadc (setField fieldBadc (setField fieldPg (setField fieldBrng
    (setField fieldBit14 (setField fieldRst 0#16 c.rst) c.bit14) c.brng) c.pg) c.badc) c.sadc) c.mode

end Sys2Proof.Machine
end

