-- ==== Sys2Proof/Machine/Float.lean ====
section
/-! DEFINITION. Binary64 arithmetic by exact integers and one rounding (spec/42_measurement.md R124, R129, R130).
The bit layout (sign 63, exponent 62 to 52 with bias 1023, fraction 51 to 0, subnormals) is IEEE 754 binary64, which
the spec takes from general knowledge (spec/93_implementation_defined.md G1): PRESUMED, log 10, unsafe. -/

namespace Sys2Proof

/-- The sign bit: true for negative values and for -0.0. -/
def F64.isNeg (x : F64) : Bool := x.getLsbD 63

/-- The biased exponent field, bits 62 to 52. -/
def F64.exponentField (x : F64) : Nat := x.toNat / 2 ^ 52 % 2 ^ 11

/-- The fraction field, bits 51 to 0. -/
def F64.fraction (x : F64) : Nat := x.toNat % 2 ^ 52

/-- Neither an infinity nor a NaN. -/
def F64.isFinite (x : F64) : Bool := x.exponentField != 2047

/-- +0.0 or -0.0. -/
def F64.isZero (x : F64) : Bool := x.toNat % 2 ^ 63 == 0

/-- The integer significand of a finite value: `|x| = significand × 2 ^ ulpExponent`. -/
def F64.significand (x : F64) : Nat :=
  if x.exponentField = 0 then x.fraction else 2 ^ 52 + x.fraction

/-- The power of two a finite value's significand counts. -/
def F64.ulpExponent (x : F64) : Int :=
  if x.exponentField = 0 then -1074 else (x.exponentField : Int) - 1075

/-- The quotient n / d rounded to the nearest natural number, a tie to the even one. -/
def roundHalfEven (n d : Nat) : Nat :=
  if d < 2 * (n % d) ∨ (d = 2 * (n % d) ∧ n / d % 2 = 1) then n / d + 1 else n / d

/-- The largest e with `2 ^ e ≤ num / den`, for positive num and den. -/
def floorLog2 (num den : Nat) : Int :=
  let e : Int := (Nat.log2 num : Int) - (Nat.log2 den : Int)
  if den * 2 ^ e.toNat ≤ num * 2 ^ (-e).toNat then e else e - 1

/-- The exponent of the last place of the binary64 value nearest `num / den`: 53 significant bits, but never below the
subnormal step `2 ^ -1074`. -/
def roundExponent (num den : Nat) : Int := max (floorLog2 num den - 52) (-1074)

/-- The significand before packing: `num / den` counted in units of `2 ^ q`, rounded once. -/
def roundSignificand (num den : Nat) (q : Int) : Nat :=
  roundHalfEven (num * 2 ^ (-q).toNat) (den * 2 ^ q.toNat)

/-- Bits 62 to 0 of `fl64 (num / den)` for den > 0 (R124): nearest, ties to even, overflow to infinity. A significand
that rounds up to 2^53 carries into the exponent field by the addition. -/
def fl64Magnitude (num den : Nat) : Nat :=
  if num = 0 then 0
  else
    let q := roundExponent num den
    min ((q + 1074).toNat * 2 ^ 52 + roundSignificand num den q) (2047 * 2 ^ 52)

/-- A binary64 value from its sign and its bits 62 to 0. -/
def F64.ofSignMagnitude (neg : Bool) (mag : Nat) : F64 :=
  BitVec.ofNat 64 ((if neg then 2 ^ 63 else 0) + mag)

/-- `fl64 (± num / den)` for den > 0. -/
def fl64 (neg : Bool) (num den : Nat) : F64 := F64.ofSignMagnitude neg (fl64Magnitude num den)

/-- `fl64 i` for an integer i of any size (R129). -/
def fl64Int (i : Int) : F64 := fl64 (decide (i < 0)) i.natAbs 1

/-- `n ×f c` for an exact integer count n and a finite c: the exact product, rounded once (R124). A zero count takes
the sign of c. -/
def mulCount (n : Int) (c : F64) : F64 :=
  fl64 (xor (decide (n < 0)) c.isNeg)
    (n.natAbs * c.significand * 2 ^ c.ulpExponent.toNat) (2 ^ (-c.ulpExponent).toNat)

/-- `x ÷f y` for finite x and finite nonzero y: the exact quotient, rounded once; the sign is the exclusive or of the
operands' signs, for a zero quotient too (R124, R130, and R135 "raw 0 with a negative divisor gives -0.0"). -/
def divF64 (x y : F64) : F64 :=
  fl64 (xor x.isNeg y.isNeg)
    (x.significand * 2 ^ (x.ulpExponent - y.ulpExponent).toNat)
    (y.significand * 2 ^ (y.ulpExponent - x.ulpExponent).toNat)

end Sys2Proof
end

