-- ==== Sys2Proof/Config.lean ====
section
/-! DEFINITION. What the spec leaves open: the environment's free draws (spec/20_memory.md R47) and the parameter
DEVICE_ADDRESS (spec/00_scope.md R6). The constants here have no body, so a claim about them holds for every value. -/

namespace Sys2Proof

/-- The answer to `T.write(bytes)` (R40). -/
inductive WriteAnswer where
  | ok
  | error (e : TransportReason)
  deriving DecidableEq, Repr, Inhabited

/-- The answer to `T.read(n)`: a byte string of any length, or an error (R40, R47). -/
inductive ReadAnswer where
  | bytes (bs : List Byte)
  | error (e : TransportReason)
  deriving DecidableEq, Repr, Inhabited

/-- One entry of the run's history H (R54): a transport call, the handle it was issued on (R40), and its answer (DESIGN
CHOICE, log 7, safe). -/
inductive Event where
  | write (handle : Option Handle) (bytes : List Byte) (answer : WriteAnswer)
  | read (handle : Option Handle) (count : Nat) (answer : ReadAnswer)
  deriving DecidableEq, Repr

namespace Config

/-- The oracle's draw for a `T.write`: free, and it may depend on the whole history of calls made so far (R47; DESIGN
CHOICE, log 3, safe). -/
opaque oracleWrite : List Event → Option Handle → List Byte → WriteAnswer

/-- The oracle's draw for a `T.read` (R47, log 3). -/
opaque oracleRead : List Event → Option Handle → Nat → ReadAnswer

/-- The mock store's answer to a written frame R48 gives no answer for; CORE never issues one (R43, R44; DESIGN
CHOICE, log 4, safe). -/
opaque mockOtherWrite : List Byte → WriteAnswer

/-- The mock store's answer to a `T.read(n)` with n other than 2, for which R48 gives none (log 4). -/
opaque mockOtherRead : Nat → ReadAnswer

/-- DEVICE_ADDRESS: the chip's bus address, bound in the transport; no rule reads it (R6, D25, log 19). -/
opaque deviceAddress : BitVec 7

end Config
end Sys2Proof
end

