-- ==== Sys2Proof/Machine/State.lean ====
section
/-! DEFINITION. The state: the record S of spec/10_state.md R21, the run's record (R54, R168), the environment
(R20, R47, R48) and the host's moves still to come (R169), all plain data; and State.reset (R156). -/

namespace Sys2Proof.Machine

/-- Which divisor an arithmetic reason names (spec/30_encoding.md R81). -/
inductive Which where
  | current
  | power
  deriving DecidableEq, Repr

/-- A result value (R81, R84). -/
inductive Value where
  | unit
  | int (i : Int)
  | pair (samples bits : Nat)
  | sym (name : String)
  | bool (b : Bool)
  | num (d : Num)
  | f64 (x : F64)
  deriving DecidableEq, Repr

/-- The payload of an error result (R81). -/
inductive Info where
  /-- status 1: the transport's reason, verbatim -/
  | transport (r : TransportReason)
  /-- status 2: a calibration value outside 0 to 65535 -/
  | calOutOfRange
  /-- status 2: a shunt pattern that matches no layout, or a gain outside 1, 2, 4, 8 -/
  | invalidShuntVoltageValue
  /-- status 3 -/
  | missingHandle
  /-- status 3 -/
  | missingCurrentDivisor
  /-- status 3 -/
  | missingPowerDivisor
  /-- status 3 -/
  | notConstructed
  /-- status 3 -/
  | alreadyConstructed
  /-- status 4 -/
  | zeroDivisor (w : Which)
  /-- status 4 -/
  | divisorOutOfRange (w : Which)
  deriving DecidableEq, Repr

/-- A response: `{ status : 3 bits, value, info }` (R81). -/
structure Response where
  status : BitVec 3
  value : Option Value
  info : Option Info
  deriving DecidableEq, Repr

/-- Why an operand is a programming error. -/
inductive ProgrammingReason where
  | invalidOperand
  deriving DecidableEq, Repr

/-- The cause of a CORE fault; the spec has one, `ProgrammingError(invalid_operand)` (spec/60_exceptions.md R144). -/
inductive FaultCause where
  | programmingError (r : ProgrammingReason)
  deriving DecidableEq, Repr

/-- The six 16-bit cells M[0..5] of the mock store (R48), one field per register of R42. -/
structure Bank where
  configuration : Word
  shuntVoltage : Word
  busVoltage : Word
  power : Word
  current : Word
  calibration : Word
  deriving DecidableEq, Repr

/-- The mock store (R48): the cells, the selected id, and the failure script F as a list of call index and reason. -/
structure MockStore where
  bank : Bank
  sel : RegId
  failures : List (Nat × TransportReason)
  deriving DecidableEq, Repr

/-- The environment (spec/00_scope.md R9). `oracle` is the normative one: its two lists are answers already drawn for the
coming calls, and when a list is used up the draw is the opaque one of Config (DESIGN CHOICE, log 2, safe). -/
inductive Env where
  | oracle (writes : List WriteAnswer) (reads : List ReadAnswer)
  | mockStore (m : MockStore)
  deriving DecidableEq, Repr

/-- The machine's state. The first eight fields are the record S of R21, in its order. -/
structure State where
  /-- 1 exactly while CORE holds a device context (R22) -/
  constructed : Bool
  /-- the one transport handle CORE owns (R23) -/
  handle : Option Handle
  /-- current_divisor (R24) -/
  cdiv : Option Num
  /-- power_divisor (R24) -/
  pdiv : Option Num
  /-- the sticky fault mark (R26) -/
  faulted : Bool
  /-- the cause of the fault (R26, R144) -/
  faultCause : Option FaultCause
  /-- the sticky refusal mark (R27) -/
  refused : Bool
  /-- the response of the most recent operation (R28) -/
  rsp : Option Response
  /-- the run's history H: every transport call with its answer, oldest first (R54) -/
  hist : List Event
  /-- the sequence of responses, oldest first (spec/70_reset_and_hazards.md R168) -/
  responses : List Response
  /-- the environment behind the transport (R9, R20) -/
  env : Env
  /-- the host's moves still to come, next first (R169; DESIGN CHOICE, log 1, safe) -/
  inbox : List HostMove
  deriving DecidableEq, Repr

/-- Where the machine stops with a fault of the MODEL (a fault of CORE is a next state: R144). -/
inductive Fault where
  /-- Raised by GET_CDIV, GET_PDIV, CURRENT and POWER in a state that is constructed and holds no such divisor. R24 says
  that both divisors are set whenever `constructed = 1`; `State.Coherent` says it and every step keeps it, so no run gets
  there. SAFE (log 9). -/
  | divisorMissing
  deriving DecidableEq, Repr

/-- Where the machine gives an instruction no meaning (a refusal of CORE is a next state: R145). -/
inductive Refusal where
  /-- Raised by a still unmodelled arm of exec; there is none. SAFE. -/
  | notModelled (mnemonic : String)
  deriving DecidableEq, Repr

/-- What one operation or one step answers. -/
abbrev Result := Host.Outcome State Fault Refusal

/-- Right after block reset: every field of S as R156 gives it, nothing issued yet (R170), the normative environment
(R9) with no draw made, and no move of the host yet (DESIGN CHOICE, log 20; see log 1, 2). -/
def State.reset : State :=
  { constructed := false
    handle := none
    cdiv := none
    pdiv := none
    faulted := false
    faultCause := none
    refused := false
    rsp := none
    hist := []
    responses := []
    env := .oracle [] []
    inbox := [] }

end Sys2Proof.Machine
end

