-- ==== Sys2Proof/Machine/Operands.lean ====
section
/-! DEFINITION. The enumeration tables of the configuration fields, both ways (spec/30_encoding.md R63 to R68), and
what an operation makes of its operands: a code, an integer, a divisor, or nothing where the operand is a programming
error (R79). -/

namespace Sys2Proof.Machine

/-- BRNG: code 0 is 16, code 1 is 32 (R63). -/
def decBrng (c : BitVec 1) : Int :=
  match c with
  | 0#1 => 16
  | _ => 32

/-- PG: the gain of a code (R64). -/
def decPg (c : BitVec 2) : Nat :=
  match c with
  | 0#2 => 1
  | 1#2 => 2
  | 2#2 => 4
  | _ => 8

/-- BADC and SADC: the pair (samples, bits) of a code, duplicates included (R65, R66). -/
def decAdc (c : BitVec 4) : Nat × Nat :=
  match c with
  | 0#4 => (1, 9)
  | 1#4 => (1, 10)
  | 2#4 => (1, 11)
  | 3#4 => (1, 12)
  | 4#4 => (1, 9)
  | 5#4 => (1, 10)
  | 6#4 => (1, 11)
  | 7#4 => (1, 12)
  | 8#4 => (1, 12)
  | 9#4 => (2, 12)
  | 10#4 => (4, 12)
  | 11#4 => (8, 12)
  | 12#4 => (16, 12)
  | 13#4 => (32, 12)
  | 14#4 => (64, 12)
  | _ => (128, 12)

/-- MODE: the name of a code (R68). -/
def decMode (c : BitVec 3) : String :=
  match c with
  | 0#3 => "power_down"
  | 1#3 => "shunt_voltage_triggered"
  | 2#3 => "bus_voltage_triggered"
  | 3#3 => "shunt_and_bus_voltage_triggered"
  | 4#3 => "adc_off"
  | 5#3 => "shunt_voltage_continuous"
  | 6#3 => "bus_voltage_continuous"
  | _ => "shunt_and_bus_voltage_continuous"

/-- The code of a bus-voltage range; no code for any other operand (R63, spec/40_config_codec.md R106). -/
def encBrng : Operand → Option (BitVec 1)
  | .int 16 => some 0#1
  | .int 32 => some 1#1
  | _ => none

/-- The code of a gain; no code for any other operand (R64, R108). -/
def encPg : Operand → Option (BitVec 2)
  | .int 1 => some 0#2
  | .int 2 => some 1#2
  | .int 4 => some 2#2
  | .int 8 => some 3#2
  | _ => none

/-- The smallest code that decodes to the pair; no code for any other pair or kind (R67, R110, R112). -/
def encAdc : Operand → Operand → Option (BitVec 4)
  | .int 1, .int 9 => some 0#4
  | .int 1, .int 10 => some 1#4
  | .int 1, .int 11 => some 2#4
  | .int 1, .int 12 => some 3#4
  | .int 2, .int 12 => some 9#4
  | .int 4, .int 12 => some 10#4
  | .int 8, .int 12 => some 11#4
  | .int 16, .int 12 => some 12#4
  | .int 32, .int 12 => some 13#4
  | .int 64, .int 12 => some 14#4
  | .int 128, .int 12 => some 15#4
  | _, _ => none

/-- The code of a mode name; no code for any other operand (R68, R80, R114). -/
def encMode : Operand → Option (BitVec 3)
  | .sym n =>
    if n = "power_down" then some 0#3
    else if n = "shunt_voltage_triggered" then some 1#3
    else if n = "bus_voltage_triggered" then some 2#3
    else if n = "shunt_and_bus_voltage_triggered" then some 3#3
    else if n = "adc_off" then some 4#3
    else if n = "shunt_voltage_continuous" then some 5#3
    else if n = "bus_voltage_continuous" then some 6#3
    else if n = "shunt_and_bus_voltage_continuous" then some 7#3
    else none
  | _ => none

/-- The divisor an operand gives: an integer or a finite binary64 value, kept as given (spec/41_calibration.md R120). -/
def operandNum : Operand → Option Num
  | .int i => some (.int i)
  | .f64 x => if x.isFinite then some (.f64 x) else none
  | _ => none

end Sys2Proof.Machine
end

