-- ==== Sys2Proof/Machine/Transport.lean ====
section
/-! DEFINITION. The register bank's transport (spec/20_memory.md): register ids, byte order, what the environment
answers to a call, and the two transport calls, each recorded in the run's history. -/

namespace Sys2Proof.Machine

/-- The id byte of a register (R42). -/
def regByte : RegId → Byte
  | .configuration => 0x00#8
  | .shuntVoltage => 0x01#8
  | .busVoltage => 0x02#8
  | .power => 0x03#8
  | .current => 0x04#8
  | .calibration => 0x05#8

/-- The register an id byte names (R42); none for 6 to 255. -/
def regOfByte (b : Byte) : Option RegId :=
  match b with
  | 0x00#8 => some .configuration
  | 0x01#8 => some .shuntVoltage
  | 0x02#8 => some .busVoltage
  | 0x03#8 => some .power
  | 0x04#8 => some .current
  | 0x05#8 => some .calibration
  | _ => none

/-- A writable register as a register (R43). -/
def writableReg : WritableReg → RegId
  | .configuration => .configuration
  | .calibration => .calibration

/-- The writable register an id byte names: ids 0 and 5 (R43). -/
def writableOfByte (b : Byte) : Option WritableReg :=
  match b with
  | 0x00#8 => some .configuration
  | 0x05#8 => some .calibration
  | _ => none

/-- The two value bytes of a 16-bit value, bits 15 to 8 first (R46). -/
def wordBytes (v : Word) : List Byte := [BitVec.ofNat 8 (v.toNat / 256), BitVec.ofNat 8 v.toNat]

/-- `256 * h + l` (R44, R46). -/
def wordOfBytes (h l : Byte) : Word := BitVec.ofNat 16 (256 * h.toNat + l.toNat)

/-- `M[id]` (R48). -/
def bankGet (b : Bank) : RegId → Word
  | .configuration => b.configuration
  | .shuntVoltage => b.shuntVoltage
  | .busVoltage => b.busVoltage
  | .power => b.power
  | .current => b.current
  | .calibration => b.calibration

/-- `M[id] <- v`, for the two registers a frame can write (R43, R48). -/
def bankSet (b : Bank) (r : WritableReg) (v : Word) : Bank :=
  match r with
  | .configuration => { b with configuration := v }
  | .calibration => { b with calibration := v }

/-- The failure script's answer to call k: the first entry of that index (R48; DESIGN CHOICE, log 17, safe). -/
def scriptedFailure (failures : List (Nat × TransportReason)) (k : Nat) : Option TransportReason :=
  failures.lookup k

/-- What a frame written to the mock store does when call k is no scripted failure (R48): one byte selects a register,
three bytes write one of the two writable registers; R48 gives no answer to any other frame (log 4). -/
def mockFrame (m : MockStore) (bytes : List Byte) : WriteAnswer × MockStore :=
  match bytes with
  | [a] =>
    match regOfByte a with
    | some r => (.ok, { m with sel := r })
    | none => (Config.mockOtherWrite bytes, m)
  | [a, h, l] =>
    match writableOfByte a with
    | some r => (.ok, { m with bank := bankSet m.bank r (wordOfBytes h l), sel := writableReg r })
    | none => (Config.mockOtherWrite bytes, m)
  | _ => (Config.mockOtherWrite bytes, m)

/-- The mock store's answer to call k, a `T.write(bytes)` (R48). -/
def mockWrite (m : MockStore) (k : Nat) (bytes : List Byte) : WriteAnswer × MockStore :=
  match scriptedFailure m.failures k with
  | some e => (.error e, m)
  | none => mockFrame m bytes

/-- The mock store's answer to call k, a `T.read(n)` (R48). Reads change nothing there. -/
def mockRead (m : MockStore) (k n : Nat) : ReadAnswer :=
  match scriptedFailure m.failures k with
  | some e => .error e
  | none => if n = 2 then .bytes (wordBytes (bankGet m.bank m.sel)) else Config.mockOtherRead n

/-- The environment's answer to `T.write(bytes)` on a handle after the history `hist`, and the environment after it
(R47, R48). Calls are numbered 1, 2, 3, ... over the run, so the next call's number is one more than the length of the
history. Under the oracle the answer is a draw: one already made, or else the opaque one (log 2, 3). Every call
answers (R166; DEDUCED, log 16, unsafe). -/
def envWrite (env : Env) (hist : List Event) (h : Option Handle) (bytes : List Byte) : WriteAnswer × Env :=
  match env with
  | .oracle (a :: writes) reads => (a, .oracle writes reads)
  | .oracle [] reads => (Config.oracleWrite hist h bytes, .oracle [] reads)
  | .mockStore m => ((mockWrite m (hist.length + 1) bytes).1, .mockStore (mockWrite m (hist.length + 1) bytes).2)

/-- The environment's answer to `T.read(n)` (R47, R48). -/
def envRead (env : Env) (hist : List Event) (h : Option Handle) (n : Nat) : ReadAnswer × Env :=
  match env with
  | .oracle writes (a :: reads) => (a, .oracle writes reads)
  | .oracle writes [] => (Config.oracleRead hist h n, .oracle writes [])
  | .mockStore m => (mockRead m (hist.length + 1) n, .mockStore m)

/-- `T.write(bytes)` on S.handle (R40): the answer, and the state with the call appended to H (R54). -/
def transportWrite (bytes : List Byte) (s : State) : WriteAnswer × State :=
  let r := envWrite s.env s.hist s.handle bytes
  (r.1, { s with env := r.2, hist := s.hist ++ [.write s.handle bytes r.1] })

/-- `T.read(n)` on S.handle (R40), appended to H (R54). -/
def transportRead (n : Nat) (s : State) : ReadAnswer × State :=
  let r := envRead s.env s.hist s.handle n
  (r.1, { s with env := r.2, hist := s.hist ++ [.read s.handle n r.1] })

end Sys2Proof.Machine
end

