-- ==== Sys2Proof/Machine/Ops.lean ====
section
/-! DEFINITION. The shared operations of every meaning: the register-bank read and write (spec/20_memory.md R44, R45),
the ways an operation ends (spec/60_exceptions.md R140, R144, R145), and the checks every command passes first (R147). -/

namespace Sys2Proof.Machine

/-- The register value in a read answer; a length other than 2 is `short_read` (R44, R49). -/
def answerWord : ReadAnswer → Except TransportReason Word
  | .error e => .error e
  | .bytes [h, l] => .ok (wordOfBytes h l)
  | .bytes bs => .error (.shortRead bs.length)

/-- `MemRead(id, 2)` (R44): select the register, then read two bytes; a failed selection issues no read. -/
def memRead (r : RegId) (s : State) : Except TransportReason Word × State :=
  match transportWrite [regByte r] s with
  | (.error e, s1) => (.error e, s1)
  | (.ok, s1) => (answerWord (transportRead 2 s1).1, (transportRead 2 s1).2)

/-- `MemWrite(id, 2, v)` (R45): one call of exactly three bytes. -/
def memWrite (r : WritableReg) (v : Word) (s : State) : WriteAnswer × State :=
  transportWrite (regByte (writableReg r) :: wordBytes v) s

/-- The status code of an error payload (spec/30_encoding.md R81, R82). -/
def infoStatus : Info → BitVec 3
  | .transport _ => 1#3
  | .calOutOfRange => 2#3
  | .invalidShuntVoltageValue => 2#3
  | .missingHandle => 3#3
  | .missingCurrentDivisor => 3#3
  | .missingPowerDivisor => 3#3
  | .notConstructed => 3#3
  | .alreadyConstructed => 3#3
  | .zeroDivisor _ => 4#3
  | .divisorOutOfRange _ => 4#3

/-- The success response (R81): status 0, a value, no info. -/
def okResponse (v : Value) : Response := { status := 0#3, value := some v, info := none }

/-- An error response (R81, R149): its status and info, no value. -/
def errorResponse (i : Info) : Response := { status := infoStatus i, value := none, info := some i }

/-- An operation's one write of S.rsp, at its end (spec/10_state.md R28), recorded in the run's responses (R168). -/
def respond (r : Response) (s : State) : State :=
  { s with rsp := some r, responses := s.responses ++ [r] }

/-- `return v`: the operation ends with status 0. -/
def finish (v : Value) (s : State) : Result := .next (respond (okResponse v) s)

/-- `raise E(info)`: the operation ends with an error result; nothing of S changes but the response (R149). -/
def raiseError (i : Info) (s : State) : Result := .next (respond (errorResponse i) s)

/-- `fault F(info)` (R144): the sticky mark and its cause, nothing else; no response. A next state (log 8). -/
def takeFault (c : FaultCause) (s : State) : Result := .next { s with faulted := true, faultCause := some c }

/-- The one fault of the spec: `ProgrammingError(invalid_operand)` (R144). -/
def programmingError (s : State) : Result := takeFault (.programmingError .invalidOperand) s

/-- A refusal (R145): the sticky mark, nothing else; no response. A next state (log 8). -/
def refuse (s : State) : Result := .next { s with refused := true }

/-- Block reset (spec/70_reset_and_hazards.md R156, R157): every field of S at its reset value; no transport call, the
environment untouched; the run's record and the host's coming moves are not fields of S and stay (DESIGN CHOICE, log 6, unsafe). -/
def blockReset (s : State) : State :=
  { s with
    constructed := false
    handle := none
    cdiv := none
    pdiv := none
    faulted := false
    faultCause := none
    refused := false
    rsp := none }

/-- Check 1 of R147 (the marks are sticky, R146), then the operation. CONSTRUCT and RELEASE pass only this one. -/
def acceptAlways (s : State) (op : State → Result) : Result :=
  if s.faulted || s.refused then refuse s else op s

/-- Checks 1 and 3 of R147, then the operation: any operation but CONSTRUCT and RELEASE needs a device context (R143). -/
def accept (s : State) (op : State → Result) : Result :=
  acceptAlways s fun s => if s.constructed then op s else raiseError .notConstructed s

/-- A register read as a step of an operation: a transport failure ends the operation with TransportError (R50, R141). -/
def withRead (r : RegId) (s : State) (k : Word → State → Result) : Result :=
  match memRead r s with
  | (.ok v, s1) => k v s1
  | (.error e, s1) => raiseError (.transport e) s1

/-- A register write as the last step of an operation (R45, R50): `return unit` when the write answered. -/
def finishWrite (r : WritableReg) (v : Word) (s : State) : Result :=
  match memWrite r v s with
  | (.ok, s1) => finish .unit s1
  | (.error e, s1) => raiseError (.transport e) s1

end Sys2Proof.Machine
end

