-- ==== Sys2Proof/Machine/Calibration.lean ====
section
/-! DEFINITION. The calibration store (spec/41_calibration.md): the raw calibration register and the two divisors held
only in CORE. -/

namespace Sys2Proof.Machine

/-- The value of a stored divisor, unchanged (R119, R121). No divisor in a constructed state: no run gets there (log 9). -/
def getDivisorOp (d : Option Num) (s : State) : Result :=
  match d with
  | some n => finish (.num n) s
  | none => .fault .divisorMissing

/-- GET_CAL (R117): register 5, no decode. -/
def execGetCal (s : State) : Result :=
  accept s fun s => withRead .calibration s fun v s1 => finish (.int v.toNat) s1

/-- SET_CAL (R118): the kind, then the range, both before the one transport call. -/
def execSetCal (a : Operand) (s : State) : Result :=
  accept s fun s =>
    match a with
    | .int value =>
      if value < 0 ∨ value > 65535 then raiseError .calOutOfRange s
      else finishWrite .calibration (BitVec.ofInt 16 value) s
    | _ => programmingError s

/-- GET_CDIV (R119). -/
def execGetCdiv (s : State) : Result :=
  accept s fun s => getDivisorOp s.cdiv s

/-- SET_CDIV (R120). -/
def execSetCdiv (a : Operand) (s : State) : Result :=
  accept s fun s =>
    match operandNum a with
    | some d => finish .unit { s with cdiv := some d }
    | none => programmingError s

/-- GET_PDIV (R121). -/
def execGetPdiv (s : State) : Result :=
  accept s fun s => getDivisorOp s.pdiv s

/-- SET_PDIV (R122). -/
def execSetPdiv (a : Operand) (s : State) : Result :=
  accept s fun s =>
    match operandNum a with
    | some d => finish .unit { s with pdiv := some d }
    | none => programmingError s

end Sys2Proof.Machine
end

