-- ==== Sys2Proof/Machine/ConfigCodec.lean ====
section
/-! DEFINITION. The eleven configuration operations (spec/40_config_codec.md): RESET, and a getter and a setter for
BRNG, PG, BADC, SADC and MODE. -/

namespace Sys2Proof.Machine

/-- GETTER_F (R102): read register 0, decode the field. -/
def getterOp (f : BitField) (dec : BitVec f.width → Value) (s : State) : Result :=
  withRead .configuration s fun cfg s1 => finish (dec (getField f cfg)) s1

/-- SETTER_F (R103): no code is a programming error before any call; else read register 0 and write it back with the
field replaced, even when that changes nothing. -/
def setterOp (f : BitField) (code : Option (BitVec f.width)) (s : State) : Result :=
  match code with
  | none => programmingError s
  | some c => withRead .configuration s fun cfg s1 => finishWrite .configuration (setField f cfg c) s1

/-- RESET (R104). -/
def execReset (s : State) : Result :=
  accept s fun s =>
    withRead .configuration s fun cfg s1 => finishWrite .configuration (setResetBit cfg) s1

/-- GET_BRNG (R105). -/
def execGetBrng (s : State) : Result :=
  accept s (getterOp fieldBrng fun c => .int (decBrng c))

/-- SET_BRNG (R106). -/
def execSetBrng (a : Operand) (s : State) : Result :=
  accept s (setterOp fieldBrng (encBrng a))

/-- GET_PGA (R107). -/
def execGetPga (s : State) : Result :=
  accept s (getterOp fieldPg fun c => .int (decPg c))

/-- SET_PGA (R108). -/
def execSetPga (a : Operand) (s : State) : Result :=
  accept s (setterOp fieldPg (encPg a))

/-- GET_BADC (R109). -/
def execGetBadc (s : State) : Result :=
  accept s (getterOp fieldBadc fun c => .pair (decAdc c).1 (decAdc c).2)

/-- SET_BADC (R110). -/
def execSetBadc (a b : Operand) (s : State) : Result :=
  accept s (setterOp fieldBadc (encAdc a b))

/-- GET_SADC (R111). -/
def execGetSadc (s : State) : Result :=
  accept s (getterOp fieldSadc fun c => .pair (decAdc c).1 (decAdc c).2)

/-- SET_SADC (R112). -/
def execSetSadc (a b : Operand) (s : State) : Result :=
  accept s (setterOp fieldSadc (encAdc a b))

/-- GET_MODE (R113). -/
def execGetMode (s : State) : Result :=
  accept s (getterOp fieldMode fun c => .sym (decMode c))

/-- SET_MODE (R114). -/
def execSetMode (a : Operand) (s : State) : Result :=
  accept s (setterOp fieldMode (encMode a))

end Sys2Proof.Machine
end

