-- ==== Sys2Proof/Machine/Lifecycle.lean ====
section
/-! DEFINITION. Construction and teardown of the device context (spec/43_lifecycle.md). Neither contacts the chip. -/

namespace Sys2Proof.Machine

/-- What CONSTRUCT finds in its operands, checked in the order of R138. -/
inductive ConstructOutcome where
  | missing (i : Info)
  | invalid
  | context (h : Handle) (c p : Num)
  deriving DecidableEq, Repr

/-- The operand checks of R138 in their order: handle, current divisor, power divisor, each first for "missing", then for
its kind. -/
def constructChecks (a b c : Operand) : ConstructOutcome :=
  match a with
  | .none => .missing .missingHandle
  | .handle h =>
    if b = .none then .missing .missingCurrentDivisor
    else
      match operandNum b with
      | none => .invalid
      | some cd =>
        if c = .none then .missing .missingPowerDivisor
        else
          match operandNum c with
          | none => .invalid
          | some pd => .context h cd pd
  | _ => .invalid

/-- CONSTRUCT (R138). -/
def execConstruct (a b c : Operand) (s : State) : Result :=
  acceptAlways s fun s =>
    if s.constructed then raiseError .alreadyConstructed s
    else
      match constructChecks a b c with
      | .missing i => raiseError i s
      | .invalid => programmingError s
      | .context h cd pd =>
        finish .unit { s with constructed := true, handle := some h, cdiv := some cd, pdiv := some pd }

/-- RELEASE (R139). -/
def execRelease (s : State) : Result :=
  acceptAlways s fun s =>
    if s.constructed then
      finish .unit { s with constructed := false, handle := none, cdiv := none, pdiv := none }
    else raiseError .notConstructed s

end Sys2Proof.Machine
end

