-- ==== Sys2Proof/Machine/Flags.lean ====
section
/-! DEFINITION. The two status flags CORE reads, bits of the chip's bus-voltage register (spec/30_encoding.md R69,
spec/42_measurement.md R126). CORE holds no copy of either and writes neither (spec/10_state.md R35). -/

namespace Sys2Proof.Machine

/-- The conversion-ready flag CNVR, bit 1 (R126). -/
def cnvr (raw : Word) : Bool := raw.getLsbD 1

/-- The math-overflow flag OVF, bit 0 (R126). -/
def ovf (raw : Word) : Bool := raw.getLsbD 0

end Sys2Proof.Machine
end

