-- ==== Sys2Proof/Machine/Measurement.lean ====
section
/-! DEFINITION. The measurement decoder (spec/42_measurement.md): the pure decode functions and the six operations. -/

namespace Sys2Proof.Machine

/-- C_SHUNT, the binary64 value of the literal 0.01 (R124). -/
def cShunt : F64 := 0x3F847AE147AE147B#64

/-- C_BUS, the binary64 value of the literal 0.004 (R124). -/
def cBus : F64 := 0x3F70624DD2F1A9FC#64

/-- The bus-voltage count, bits 15 to 3 (R125). -/
def busCount (raw : Word) : Nat := raw.toNat / 8

/-- `decode_bus` (R125): volts. -/
def decodeBus (raw : Word) : F64 := mulCount (busCount raw) cBus

/-- `gain_shift` (R64, R127); none for a gain outside 1, 2, 4, 8. -/
def gainShift : Nat → Option Nat
  | 1 => some 3
  | 2 => some 2
  | 4 => some 1
  | 8 => some 0
  | _ => none

/-- Every pad bit i, N ≤ i ≤ 14, equals the sign bit (spec/30_encoding.md R71). -/
def padBitsMatch (n : Nat) (raw : Word) : Bool :=
  (List.range' n (15 - n)).all fun i => raw.getLsbD i == raw.getLsbD 15

/-- The count of a pattern of N significant bits (R127): the magnitude, or minus what it lacks to 2^N. -/
def shuntCountOf (n : Nat) (raw : Word) : Int :=
  let mag : Nat := raw.toNat % 2 ^ n
  if raw.getLsbD 15 then -((2 ^ n : Int) - mag) else mag

/-- The signed count of a shunt pattern at a gain; none where `decode_shunt` raises (R127, R128). -/
def shuntCount (gain : Nat) (raw : Word) : Option Int :=
  match gainShift gain with
  | none => none
  | some shift => if padBitsMatch (16 - shift) raw then some (shuntCountOf (16 - shift) raw) else none

/-- `decode_shunt` (R127): millivolts, or the validation error of R128. -/
def decodeShunt (gain : Nat) (raw : Word) : Except Info F64 :=
  match shuntCount gain raw with
  | some count => .ok (mulCount count cShunt)
  | none => .error .invalidShuntVoltageValue

/-- `to_f64` (R129). -/
def numToF64 : Num → F64
  | .int i => fl64Int i
  | .f64 x => x

/-- `scale` (R130). An integer divisor converts to an infinity when it is out of range; a stored binary64 divisor is
finite (R24), and a NaN, which no run stores, is taken as out of range too (DESIGN CHOICE, log 9, safe). A quotient that
overflows is an infinity (DEDUCED, log 11, unsafe). -/
def scale (raw : Word) (d : Num) (w : Which) : Except Info F64 :=
  let q := numToF64 d
  if q.isZero then .error (.zeroDivisor w)
  else if q.isFinite then .ok (divF64 (fl64Int raw.toNat) q)
  else .error (.divisorOutOfRange w)

/-- The end of a measurement: the decoded value, or its error (R147 steps 6 to 8). -/
def finishF64 (r : Except Info F64) (s : State) : Result :=
  match r with
  | .ok x => finish (.f64 x) s
  | .error i => raiseError i s

/-- A flag of the bus-voltage register; every transport failure is the value false (R133, R134). -/
def flagOp (flag : Word → Bool) (s : State) : Result :=
  match memRead .busVoltage s with
  | (.ok raw, s1) => finish (.bool (flag raw)) s1
  | (.error _, s1) => finish (.bool false) s1

/-- A raw register divided by a stored divisor (R135, R136): the checks of the divisor come after the read. -/
def scaledOp (r : RegId) (d : Option Num) (w : Which) (s : State) : Result :=
  withRead r s fun raw s1 =>
    match d with
    | some n => finishF64 (scale raw n w) s1
    | none => .fault .divisorMissing

/-- SHUNT_VOLTAGE (R131): the configuration first, then the shunt register, decoded with the gain just read. -/
def execShuntVoltage (s : State) : Result :=
  accept s fun s =>
    withRead .configuration s fun cfg s1 =>
      withRead .shuntVoltage s1 fun raw s2 => finishF64 (decodeShunt (decPg (getField fieldPg cfg)) raw) s2

/-- BUS_VOLTAGE (R132). -/
def execBusVoltage (s : State) : Result :=
  accept s fun s => withRead .busVoltage s fun raw s1 => finish (.f64 (decodeBus raw)) s1

/-- CONV_READY (R133). -/
def execConvReady (s : State) : Result :=
  accept s (flagOp cnvr)

/-- MATH_OVF (R134). -/
def execMathOvf (s : State) : Result :=
  accept s (flagOp ovf)

/-- CURRENT (R135). -/
def execCurrent (s : State) : Result :=
  accept s fun s => scaledOp .current s.cdiv .current s

/-- POWER (R136). -/
def execPower (s : State) : Result :=
  accept s fun s => scaledOp .power s.pdiv .power s

end Sys2Proof.Machine
end

