-- ==== Sys2Proof/Machine/Dispatch.lean ====
section
/-! DEFINITION. One arm per operation of spec/30_encoding.md R77, each one call of its meaning. -/

namespace Sys2Proof.Machine

/-- The operation an instruction is (R76). -/
def exec (i : Instr) (s : State) : Host.Outcome State Fault Refusal :=
  match i with
  | .reset => Sys2Proof.Machine.execReset s
  | .getBrng => Sys2Proof.Machine.execGetBrng s
  | .setBrng a => Sys2Proof.Machine.execSetBrng a s
  | .getPga => Sys2Proof.Machine.execGetPga s
  | .setPga a => Sys2Proof.Machine.execSetPga a s
  | .getBadc => Sys2Proof.Machine.execGetBadc s
  | .setBadc a b => Sys2Proof.Machine.execSetBadc a b s
  | .getSadc => Sys2Proof.Machine.execGetSadc s
  | .setSadc a b => Sys2Proof.Machine.execSetSadc a b s
  | .getMode => Sys2Proof.Machine.execGetMode s
  | .setMode a => Sys2Proof.Machine.execSetMode a s
  | .getCal => Sys2Proof.Machine.execGetCal s
  | .setCal a => Sys2Proof.Machine.execSetCal a s
  | .getCdiv => Sys2Proof.Machine.execGetCdiv s
  | .setCdiv a => Sys2Proof.Machine.execSetCdiv a s
  | .getPdiv => Sys2Proof.Machine.execGetPdiv s
  | .setPdiv a => Sys2Proof.Machine.execSetPdiv a s
  | .shuntVoltage => Sys2Proof.Machine.execShuntVoltage s
  | .busVoltage => Sys2Proof.Machine.execBusVoltage s
  | .convReady => Sys2Proof.Machine.execConvReady s
  | .mathOvf => Sys2Proof.Machine.execMathOvf s
  | .current => Sys2Proof.Machine.execCurrent s
  | .power => Sys2Proof.Machine.execPower s
  | .construct a b c => Sys2Proof.Machine.execConstruct a b c s
  | .release => Sys2Proof.Machine.execRelease s

end Sys2Proof.Machine
end

