-- ==== Sys2Proof/Machine/Moves.lean ====
section
/-! DEFINITION. What one move of the host does (spec/70_reset_and_hazards.md R169), and how a command is placed as the
next move. -/

namespace Sys2Proof.Machine

/-- One move of the host on a state whose inbox no longer holds it. Moves never overlap (R154; DEDUCED, log 15, safe). A
command with an unassigned opsel is refused (R78, R145, R147 step 2; in a faulted or refused state step 1 refuses too,
with the same effect). -/
def hostMove (m : HostMove) (s : State) : Result :=
  match m with
  | .blockReset => .next (blockReset s)
  | .command c =>
    match decode c with
    | .ok i => exec i s
    | .error _ => refuse s

/-- The state with a command placed as the host's next move (log 1). -/
def placeCommand (c : Command) (s : State) : State := { s with inbox := .command c :: s.inbox }

end Sys2Proof.Machine
end

