-- ==== Sys2Proof/Machine/Step.lean ====
section
/-! DEFINITION. One step: the host's next move, run to completion (spec/10_state.md R20, R31, spec/30_encoding.md R76). -/

namespace Sys2Proof.Machine

/-- One step takes the host's next move from the inbox and runs it; with no move to come, CORE waits and nothing changes
(log 1). -/
def step (s : State) : Host.Outcome State Fault Refusal :=
  match s.inbox with
  | [] => .next s
  | m :: rest => hostMove m { s with inbox := rest }

/-- The state with the opcode table's bit pattern as the host's next command, its operand slots `none` (log 1, 12). -/
def State.withFetchWord (s : State) (nbits w : Nat) : State := placeCommand (tableCommand nbits w) s

end Sys2Proof.Machine
end

