-- ==== Sys2Proof/Machine/Assembler.lean ====
section
/-! DEFINITION. The spec's assembly spelling of a command (spec/30_encoding.md R85): mnemonic, then operands separated
by commas. A line has at most three operands and the slots it leaves out are `none`; spaces around an operand do not
count (DESIGN CHOICE, log 18, safe: no operation reads a line). -/

namespace Sys2Proof.Machine

/-- The mnemonics of R77 with their opsel values. -/
def mnemonicTable : List (String × Byte) :=
  [("RESET", 0x10#8), ("GET_BRNG", 0x11#8), ("SET_BRNG", 0x12#8), ("GET_PGA", 0x13#8), ("SET_PGA", 0x14#8),
   ("GET_BADC", 0x15#8), ("SET_BADC", 0x16#8), ("GET_SADC", 0x17#8), ("SET_SADC", 0x18#8), ("GET_MODE", 0x19#8),
   ("SET_MODE", 0x1A#8), ("GET_CAL", 0x20#8), ("SET_CAL", 0x21#8), ("GET_CDIV", 0x22#8), ("SET_CDIV", 0x23#8),
   ("GET_PDIV", 0x24#8), ("SET_PDIV", 0x25#8), ("SHUNT_VOLTAGE", 0x30#8), ("BUS_VOLTAGE", 0x31#8),
   ("CONV_READY", 0x32#8), ("MATH_OVF", 0x33#8), ("CURRENT", 0x34#8), ("POWER", 0x35#8), ("CONSTRUCT", 0x40#8),
   ("RELEASE", 0x41#8)]

/-- The parts of a text between separators; there is always one. -/
def splitAtChar (sep : Char) : List Char → List (List Char)
  | [] => [[]]
  | c :: cs =>
    if c = sep then [] :: splitAtChar sep cs
    else
      match splitAtChar sep cs with
      | [] => [[c]]
      | p :: ps => (c :: p) :: ps

/-- A text without its leading and trailing spaces. -/
def trimSpaces (t : List Char) : List Char :=
  ((t.dropWhile (· == ' ')).reverse.dropWhile (· == ' ')).reverse

/-- The value of a digit, decimal or hexadecimal. -/
def digitValue (c : Char) : Nat :=
  if c.isDigit then c.toNat - 48 else if c.toNat ≥ 97 then c.toNat - 87 else c.toNat - 55

/-- A hexadecimal digit, of either case (DESIGN CHOICE, log 18, safe). -/
def isHexDigit (c : Char) : Bool := c.isDigit || ('a' ≤ c && c ≤ 'f') || ('A' ≤ c && c ≤ 'F')

/-- A nonempty run of digits in a base. -/
def parseDigits (base : Nat) (isDig : Char → Bool) (t : List Char) : Option Nat :=
  if t ≠ [] ∧ t.all isDig then some (t.foldl (fun n c => base * n + digitValue c) 0) else none

/-- A number without its sign: `0x` hexadecimal or decimal is an `int`, a decimal with a point an `f64`;
the point has digits on both sides (DESIGN CHOICE, log 18, safe). -/
def parseNumber (neg : Bool) (t : List Char) : Option Operand :=
  match t with
  | '0' :: 'x' :: ds =>
    (parseDigits 16 isHexDigit ds).map fun n => .int (if neg then -(n : Int) else n)
  | _ =>
    match splitAtChar '.' t with
    | [ds] => (parseDigits 10 Char.isDigit ds).map fun n => .int (if neg then -(n : Int) else n)
    | [ds, fs] =>
      if ds = [] ∨ fs = [] then none
      else (parseDigits 10 Char.isDigit (ds ++ fs)).map fun n => .f64 (fl64 neg n (10 ^ fs.length))
    | _ => none

/-- One operand of R85: `_`, a number with an optional sign, a handle (a name beginning with `h`) or a bare name. A name is
an ASCII letter, then letters, digits and underscores (DESIGN CHOICE, log 18, safe). -/
def parseOperand (t : List Char) : Option Operand :=
  match t with
  | ['_'] => some .none
  | '-' :: ds => parseNumber true ds
  | '+' :: ds => parseNumber false ds
  | c :: cs =>
    if c.isDigit then parseNumber false t
    else if c.isAlpha && cs.all (fun d => d.isAlphanum || d == '_') then
      if c = 'h' then some (.handle ⟨String.ofList t⟩) else some (.sym (String.ofList t))
    else none
  | [] => none

/-- A command from its mnemonic and its operand list. -/
def commandOf (mnemonic : List Char) (operands : List Operand) : Option Command :=
  match mnemonicTable.lookup (String.ofList mnemonic), operands with
  | some op, [] => some ⟨op, .none, .none, .none⟩
  | some op, [a] => some ⟨op, a, .none, .none⟩
  | some op, [a, b] => some ⟨op, a, b, .none⟩
  | some op, [a, b, c] => some ⟨op, a, b, c⟩
  | _, _ => none

/-- The command an assembly line spells (R85). -/
def assembleLine (line : String) : Option Command :=
  let t := trimSpaces line.toList
  let mnemonic := t.takeWhile (· != ' ')
  let rest := trimSpaces (t.drop mnemonic.length)
  if rest = [] then commandOf mnemonic []
  else
    match (splitAtChar ',' rest).mapM fun p => parseOperand (trimSpaces p) with
    | some ops => commandOf mnemonic ops
    | none => none

end Sys2Proof.Machine
end

