-- ==== Sys2Proof/WellFormed.lean ====
section
/-! DEFINITION. When a command's operands are ones its operation accepts without a programming error: the kinds of
spec/30_encoding.md R79 and the values the enumerated setters have codes for (spec/40_config_codec.md R106, R108,
R110, R112, R114). An ill-formed command is still executed: it takes the fault of R144. Stated here from the spec's
lists, apart from the encode tables of Machine/Operands.lean. -/

namespace Sys2Proof

/-- A divisor operand: an integer or a finite binary64 value (spec/41_calibration.md R120). -/
def Operand.isNum : Operand → Bool
  | .int _ => true
  | .f64 x => x.isFinite
  | _ => false

/-- An integer operand (R79). -/
def Operand.isInt : Operand → Bool
  | .int _ => true
  | _ => false

/-- An operand that is one of the listed integers. -/
def Operand.isOneOf (values : List Int) : Operand → Bool
  | .int i => values.contains i
  | _ => false

/-- The eight names of the MODE field (R68, R80). -/
def modeNames : List String :=
  ["power_down", "shunt_voltage_triggered", "bus_voltage_triggered", "shunt_and_bus_voltage_triggered",
   "adc_off", "shunt_voltage_continuous", "bus_voltage_continuous", "shunt_and_bus_voltage_continuous"]

/-- A `sym` operand that is one of the eight mode names. -/
def Operand.isModeName : Operand → Bool
  | .sym n => modeNames.contains n
  | _ => false

/-- The eleven pairs (samples, bits) an ADC setter has a code for (R67). -/
def adcPairs : List (Int × Int) :=
  [(1, 9), (1, 10), (1, 11), (1, 12), (2, 12), (4, 12), (8, 12), (16, 12), (32, 12), (64, 12), (128, 12)]

/-- Two integer operands that are one of the eleven pairs. -/
def Operand.isAdcPair : Operand → Operand → Bool
  | .int samples, .int bits => adcPairs.contains (samples, bits)
  | _, _ => false

/-- A handle or nothing: CONSTRUCT's first operand (R138); nothing is "missing", a configuration error. -/
def Operand.isHandleOrNone : Operand → Bool
  | .none => true
  | .handle _ => true
  | _ => false

/-- A divisor or nothing: CONSTRUCT's other operands (R138). -/
def Operand.isNumOrNone (x : Operand) : Bool := x.isNum || x == .none

/-- The operands of the instruction are ones it accepts without a programming error. -/
def Instr.wellFormed : Instr → Bool
  | .setBrng a => a.isOneOf [16, 32]
  | .setPga a => a.isOneOf [1, 2, 4, 8]
  | .setBadc a b => Operand.isAdcPair a b
  | .setSadc a b => Operand.isAdcPair a b
  | .setMode a => a.isModeName
  | .setCal a => a.isInt
  | .setCdiv a => a.isNum
  | .setPdiv a => a.isNum
  | .construct a b c => a.isHandleOrNone && b.isNumOrNone && c.isNumOrNone
  | .reset => true
  | .getBrng => true
  | .getPga => true
  | .getBadc => true
  | .getSadc => true
  | .getMode => true
  | .getCal => true
  | .getCdiv => true
  | .getPdiv => true
  | .shuntVoltage => true
  | .busVoltage => true
  | .convReady => true
  | .mathOvf => true
  | .current => true
  | .power => true
  | .release => true

end Sys2Proof
end

