-- ==== Sys2Proof/Safety.lean ====
section
/-! DEFINITION. The terms claims are stated in: when CORE accepts an operation, what every state of a run looks like,
which transport frames are legal, the exact value of a binary64, and what a run and a successful run are
(spec/70_reset_and_hazards.md R168, R170). -/

namespace Sys2Proof

/-- The exact value of a finite binary64, without its sign. -/
def F64.absValue (x : F64) : ℚ := (x.significand : ℚ) * (2 : ℚ) ^ x.ulpExponent

/-- The exact value of a finite binary64. -/
def F64.value (x : F64) : ℚ := if x.isNeg then -x.absValue else x.absValue

/-- The smallest magnitude that rounds to an infinity, `2^1024 - 2^970` (spec/42_measurement.md R130): half a step above the
largest finite value `(2^53 - 1) × 2^971`. -/
def overflowBound : Nat := (2 ^ 54 - 1) * 2 ^ 970

namespace Machine

/-- No fault and no refusal is recorded (R147 step 1 passes). -/
abbrev State.Clear (s : State) : Prop := s.faulted = false ∧ s.refused = false

/-- The common checks of spec/60_exceptions.md R147 pass: no mark is set and a device context exists. -/
abbrev State.Ready (s : State) : Prop := s.Clear ∧ s.constructed = true

/-- A value of the spec's type Num: an integer or a finite binary64 (spec/10_state.md R24). -/
def numValid : Num → Bool
  | .int _ => true
  | .f64 x => x.isFinite

/-- The device context is all there or not there at all, the divisors are values of Num, and a fault has a cause
(spec/10_state.md R22, R23, R24, R26). -/
structure State.Coherent (s : State) : Prop where
  handle : s.handle.isSome = s.constructed
  cdiv : s.cdiv.isSome = s.constructed
  pdiv : s.pdiv.isSome = s.constructed
  cdivValid : s.cdiv.all numValid = true
  pdivValid : s.pdiv.all numValid = true
  cause : s.faultCause.isSome = s.faulted

/-- A response as spec/30_encoding.md R81 and R82 allow it: a value exactly with status 0, else an info whose kind has
that status. -/
def responseOk (r : Response) : Bool :=
  match r.value, r.info with
  | some _, none => r.status == 0#3
  | none, some i => r.status == infoStatus i
  | _, _ => false

/-- Every response is well formed, and S.rsp is the last one unless none was written since reset (R28, R81, R82). -/
structure State.ResponsesOk (s : State) : Prop where
  all : s.responses.all responseOk = true
  last : s.rsp = none ∨ s.rsp = s.responses.getLast?

/-- The history is a sequence of whole transactions with the frames of spec/30_encoding.md R74: a selection of a register
0 to 5 followed by its two-byte read when the selection was answered `ok` and by no read otherwise (R44), or a three-byte
write of register 0 or 5 (R43, R45). -/
def transactionsOk : List Event → Bool
  | [] => true
  | .write _ [a] .ok :: .read _ n _ :: rest => decide (a.toNat ≤ 5) && n == 2 && transactionsOk rest
  | .write _ [a] (.error _) :: rest => decide (a.toNat ≤ 5) && transactionsOk rest
  | .write _ [a, _, _] _ :: rest => (a == 0x00#8 || a == 0x05#8) && transactionsOk rest
  | _ => false

/-- A call that did not fail: not an error, and a read of exactly two bytes. -/
def answered : Event → Bool
  | .write _ _ .ok => true
  | .write _ _ (.error _) => false
  | .read _ _ (.bytes bs) => bs.length == 2
  | .read _ _ (.error _) => false

/-- The transport calls of an operation when nothing fails (spec/70_reset_and_hazards.md R165). -/
def callCount : Instr → Nat
  | .reset => 3
  | .setBrng _ => 3
  | .setPga _ => 3
  | .setBadc _ _ => 3
  | .setSadc _ _ => 3
  | .setMode _ => 3
  | .getBrng => 2
  | .getPga => 2
  | .getBadc => 2
  | .getSadc => 2
  | .getMode => 2
  | .getCal => 2
  | .busVoltage => 2
  | .convReady => 2
  | .mathOvf => 2
  | .current => 2
  | .power => 2
  | .shuntVoltage => 4
  | .setCal _ => 1
  | .getCdiv => 0
  | .setCdiv _ => 0
  | .getPdiv => 0
  | .setPdiv _ => 0
  | .construct _ _ _ => 0
  | .release => 0

/-- How many operand slots an operation reads, from slot a on (spec/30_encoding.md R77, R79). -/
def slotsRead : Instr → Nat
  | .setBrng _ => 1
  | .setPga _ => 1
  | .setBadc _ _ => 2
  | .setSadc _ _ => 2
  | .setMode _ => 1
  | .setCal _ => 1
  | .setCdiv _ => 1
  | .setPdiv _ => 1
  | .construct _ _ _ => 3
  | _ => 0

/-- A command that carries an instruction's opsel, and its operands in the slots it reads, whatever stands in the others
(R75). -/
def carries (c : Command) (i : Instr) : Prop :=
  c.opsel = i.opsel ∧ (1 ≤ slotsRead i → c.a = i.operands.1) ∧ (2 ≤ slotsRead i → c.b = i.operands.2.1) ∧
    (3 ≤ slotsRead i → c.c = i.operands.2.2)

/-- Whether an operation writes a field of the device context when it completes: CONSTRUCT, RELEASE and the two divisor
setters (spec/10_state.md R21, the "written by" column). -/
def changesContext : Instr → Bool
  | .construct _ _ _ => true
  | .release => true
  | .setCdiv _ => true
  | .setPdiv _ => true
  | _ => false

/-- The six cells under the mock store; none under the oracle, which has no register value (R170). -/
def State.bank (s : State) : Option Bank :=
  match s.env with
  | .mockStore m => some m.bank
  | .oracle _ _ => none

/-- S at reset, a chosen environment, and the host's moves to come (R169, R170 env-choice). -/
def startWith (env : Env) (moves : List HostMove) : State := { State.reset with env := env, inbox := moves }

/-- The start of a run: a block reset, then a finite sequence of commands, in a chosen environment (R168, R170
reset-launch and env-choice). A later block reset is no move of this run. -/
def launch (env : Env) (commands : List Command) : State := startWith env (commands.map .command)

/-- A run that ended after its last command in a given state (R168). -/
def RunEnds (env : Env) (commands : List Command) (t : State) : Prop :=
  core.run commands.length (launch env commands) = .next t ∧ t.inbox = []

/-- A successful run: it ended, and no fault and no refusal is recorded (R168, R170 no-fault-recorded). A run holds no
second block reset, so a mark set on its way is still set at its end (R146). -/
def SuccessfulRun (env : Env) (commands : List Command) (t : State) : Prop :=
  RunEnds env commands t ∧ t.Clear

/-- A divisor as the operand that gives it (spec/41_calibration.md R120). -/
def numOperand : Num → Operand
  | .int i => .int i
  | .f64 x => .f64 x

/-- The table of R65 as two lists, code 0 first. -/
def adcSamplesTable : List Nat := [1, 1, 1, 1, 1, 1, 1, 1, 1, 2, 4, 8, 16, 32, 64, 128]
/-- The bits column of R65. -/
def adcBitsTable : List Nat := [9, 10, 11, 12, 9, 10, 11, 12, 12, 12, 12, 12, 12, 12, 12, 12]

/-- The table of R67: the pair and its code. -/
def adcEncodeTable : List ((Int × Int) × Nat) :=
  [((1, 9), 0), ((1, 10), 1), ((1, 11), 2), ((1, 12), 3), ((2, 12), 9), ((4, 12), 10), ((8, 12), 11), ((16, 12), 12),
   ((32, 12), 13), ((64, 12), 14), ((128, 12), 15)]

/-- What a reader of one register does (R102, R141): it completes with a value of what it read, or a failed read ends it
with TransportError, the reason verbatim. -/
def GetterRuns (i : Instr) (r : RegId) (value : Word → Value) (s : State) : Prop :=
  ∀ s1 : State,
    (∀ v, memRead r s = (.ok v, s1) → exec i s = .next (respond (okResponse (value v)) s1)) ∧
    (∀ e, memRead r s = (.error e, s1) → exec i s = .next (respond (errorResponse (.transport e)) s1))

/-- What CURRENT and POWER do with their divisor (R135, R136). -/
def ScaledRuns (i : Instr) (r : RegId) (d : Num) (w : Which) (s : State) : Prop :=
  ∀ s1 : State,
    (∀ raw, memRead r s = (.ok raw, s1) →
      (∀ x, scale raw d w = .ok x → exec i s = .next (respond (okResponse (.f64 x)) s1)) ∧
      (∀ j, scale raw d w = .error j → exec i s = .next (respond (errorResponse j) s1))) ∧
    (∀ e, memRead r s = (.error e, s1) → exec i s = .next (respond (errorResponse (.transport e)) s1))

/-- What a configuration setter does once its operand has a code (R103): a failed read ends it and issues no write; else
the word `newWord cfg` is written, and the write's answer ends it. -/
def SetterRuns (i : Instr) (newWord : Word → Word) (s : State) : Prop :=
  ∀ s1 : State,
    (∀ e, memRead .configuration s = (.error e, s1) →
      exec i s = .next (respond (errorResponse (.transport e)) s1)) ∧
    (∀ cfg, memRead .configuration s = (.ok cfg, s1) → ∀ s2,
      (memWrite .configuration (newWord cfg) s1 = (.ok, s2) →
        exec i s = .next (respond (okResponse .unit) s2)) ∧
      (∀ e, memWrite .configuration (newWord cfg) s1 = (.error e, s2) →
        exec i s = .next (respond (errorResponse (.transport e)) s2)))

/-- RESET and every configuration setter with every operand it has a code for (R63, R64, R67, R68), each with the word it
writes for a word read (R103, R104). -/
def setterWords : List (Instr × (Word → Word)) :=
  [(.reset, fun cfg => cfg ||| 0x8000#16),
    (.setBrng (.int 16), fun cfg => cfg &&& 0xDFFF#16),
    (.setBrng (.int 32), fun cfg => cfg &&& 0xDFFF#16 ||| 0x2000#16),
    (.setPga (.int 1), fun cfg => cfg &&& 0xE7FF#16),
    (.setPga (.int 2), fun cfg => cfg &&& 0xE7FF#16 ||| 0x0800#16),
    (.setPga (.int 4), fun cfg => cfg &&& 0xE7FF#16 ||| 0x1000#16),
    (.setPga (.int 8), fun cfg => cfg &&& 0xE7FF#16 ||| 0x1800#16)] ++
  (adcEncodeTable.map fun row => (.setBadc (.int row.1.1) (.int row.1.2),
    fun cfg => cfg &&& 0xF87F#16 ||| BitVec.ofNat 16 (row.2 * 128))) ++
  (adcEncodeTable.map fun row => (.setSadc (.int row.1.1) (.int row.1.2),
    fun cfg => cfg &&& 0xFF87#16 ||| BitVec.ofNat 16 (row.2 * 8))) ++
  ((List.range 8).map fun k => (.setMode (.sym (modeNames.getD k "")),
    fun cfg => cfg &&& 0xFFF8#16 ||| BitVec.ofNat 16 k))

/-- The setter and the getter of one field, with an operand and the value it reads back as. -/
structure FieldPair where
  set : Instr
  get : Instr
  value : Value
  mask : Word

/-- Every configuration setter with every operand it has a code for. -/
def fieldPairs : List FieldPair :=
  ([16, 32].map fun v : Int => ⟨.setBrng (.int v), .getBrng, .int v, 0x2000#16⟩) ++
  ([1, 2, 4, 8].map fun v : Int => ⟨.setPga (.int v), .getPga, .int v, 0x1800#16⟩) ++
  (adcEncodeTable.map fun r =>
    ⟨.setBadc (.int r.1.1) (.int r.1.2), .getBadc, .pair r.1.1.toNat r.1.2.toNat, 0x0780#16⟩) ++
  (adcEncodeTable.map fun r =>
    ⟨.setSadc (.int r.1.1) (.int r.1.2), .getSadc, .pair r.1.1.toNat r.1.2.toNat, 0x0078#16⟩) ++
  (modeNames.map fun n => ⟨.setMode (.sym n), .getMode, .sym n, 0x0007#16⟩)

end Machine
end Sys2Proof
end

