-- ==== Sys2Proof/Certificates/Slice0/Obligations.lean ====
section
/-! DEFINITION. The statements for the provers, grouped as the spec's files are. Each docstring names the rule of spec/
it formalises; a statement that rests on a choice of the model names the log entry. -/

open Sys2Proof Sys2Proof.Machine

/-! ## Commands and decoding (spec/30_encoding.md) -/

/-- R77, R75: five opsel values, one of each group, written out, select their operations with the operand slots they
read, whatever stands in the others. -/
def Obligations.OpselWordsDecode : Prop :=
  decodeTableWord 8 0b00010000 = some .reset ∧
  (∀ a b c, decode ⟨0b00010110#8, a, b, c⟩ = .ok (.setBadc a b)) ∧
  (∀ a b c, decode ⟨0b00100001#8, a, b, c⟩ = .ok (.setCal a)) ∧
  (∀ a b c, decode ⟨0b00110000#8, a, b, c⟩ = .ok .shuntVoltage) ∧
  (∀ a b c, decode ⟨0b01000000#8, a, b, c⟩ = .ok (.construct a b c))

/-- R75, R77: an instruction's command decodes to it, and so does every command with its opsel and its operands in the slots
it reads: a slot the operation does not read is ignored; every command with an instruction's opsel decodes to an instruction
of that opsel, and a command that decodes to an instruction carries its opsel. (That encode fills unread slots with `none`
is the model's choice, log 13.) -/
def Obligations.DecodeAndEncodeAgree : Prop :=
  (∀ i, decode (encode i) = .ok i) ∧
  (∀ c i, carries c i → decode c = .ok i) ∧
  (∀ (c : Command) (i : Instr), i.opsel = c.opsel → ∃ j, decode c = .ok j ∧ j.opsel = c.opsel) ∧
  (∀ c i, decode c = .ok i → i.opsel = c.opsel)

/-- R78: 231 opsel values are unassigned, and a command carrying one is refused: no call, no field but S.refused. (The
inbox is the model's own field, log 1.) -/
def Obligations.UnassignedOpselRefused : Prop :=
  ((List.range 256).filter fun w => (decodeTableWord 8 w).isNone).length = 231 ∧
  ∀ (s : State) c rest, s.inbox = .command c :: rest → (∀ i : Instr, i.opsel ≠ c.opsel) →
    step s = .next { s with inbox := rest, refused := true }

/-- R76, R169, log 1: a step runs the instruction its next command decodes to, on the state without that command; with no
move of the host to come, CORE waits and nothing changes. -/
def Obligations.StepRunsDecodedInstruction : Prop :=
  ∀ s : State,
    (∀ c rest i, s.inbox = .command c :: rest → decode c = .ok i → step s = exec i { s with inbox := rest }) ∧
    (s.inbox = [] → step s = .next s)

/-- R85: the spec's four example lines and a signed, a hexadecimal and a bare mnemonic line assemble to their commands. -/
def Obligations.AssemblerExamples : Prop :=
  assembleLine "SET_BADC 128, 12" = some (encode (.setBadc (.int 128) (.int 12))) ∧
  assembleLine "SET_MODE shunt_and_bus_voltage_continuous"
    = some (encode (.setMode (.sym "shunt_and_bus_voltage_continuous"))) ∧
  assembleLine "CONSTRUCT h0, 2, 4.0"
    = some (encode (.construct (.handle ⟨"h0"⟩) (.int 2) (.f64 0x4010000000000000#64))) ∧
  assembleLine "CONSTRUCT h0, _, 4" = some (encode (.construct (.handle ⟨"h0"⟩) .none (.int 4))) ∧
  assembleLine "SET_BRNG -16" = some (encode (.setBrng (.int (-16)))) ∧
  assembleLine "SET_CAL 0xABCD" = some (encode (.setCal (.int 43981))) ∧
  assembleLine "RELEASE" = some (encode .release)

/-! ## Reset and the checks every command passes (spec/70_reset_and_hazards.md, spec/60_exceptions.md) -/

/-- R156: the fields of S at reset. -/
def Obligations.ResetClearsEveryField : Prop :=
  State.reset.constructed = false ∧ State.reset.handle = none ∧ State.reset.cdiv = none ∧ State.reset.pdiv = none ∧
  State.reset.faulted = false ∧ State.reset.faultCause = none ∧ State.reset.refused = false ∧ State.reset.rsp = none

/-- R156, R157: a block reset leaves every field of S as at reset, whatever the state, and issues no transport call. That
the record of earlier calls and responses stays is the model's choice (log 6). -/
def Obligations.BlockResetStep : Prop :=
  ∀ (s : State) rest, s.inbox = .blockReset :: rest →
    step s = .next { State.reset with hist := s.hist, responses := s.responses, env := s.env, inbox := rest }

/-- R146: while a mark is set every command is refused, whatever its opsel. -/
def Obligations.StickyMarksRefuseEveryCommand : Prop :=
  ∀ (s : State) c rest, s.inbox = .command c :: rest → (s.faulted = true ∨ s.refused = true) →
    step s = .next { s with inbox := rest, refused := true }

/-- R26, R27: no operation clears a mark or a recorded cause; only a block reset does. -/
def Obligations.OnlyBlockResetClearsMarks : Prop :=
  ∀ (s t : State), step s = .next t → s.inbox.head? ≠ some .blockReset →
    (s.faulted = true → t.faulted = true ∧ t.faultCause = s.faultCause) ∧ (s.refused = true → t.refused = true)

/-- R143, R147 step 3: without a device context every operation but CONSTRUCT ends with `not_constructed`, and with one
CONSTRUCT ends with `already_constructed`; no call is made in either case. -/
def Obligations.DeviceContextChecks : Prop :=
  ∀ s : State, s.Clear →
    (s.constructed = false → ∀ i, (∀ a b c, i ≠ Instr.construct a b c) →
      exec i s = .next (respond (errorResponse .notConstructed) s)) ∧
    (s.constructed = true → ∀ a b c,
      exec (.construct a b c) s = .next (respond (errorResponse .alreadyConstructed) s))

/-- R144: an operand that an operation cannot use faults before any transport call, and sets the mark and its cause, and
nothing else. (CONSTRUCT has its own order of checks: ConstructOutcomes.) -/
def Obligations.IllFormedOperandFaults : Prop :=
  ∀ (s : State) i, s.Ready → i.wellFormed = false → (∀ a b c, i ≠ Instr.construct a b c) →
    exec i s = .next { s with faulted := true, faultCause := some (.programmingError .invalidOperand) }

/-- R144, the other way: an operation whose operands are well formed never sets the fault mark. -/
def Obligations.WellFormedNeverFaults : Prop :=
  ∀ (s t : State) i, i.wellFormed = true → exec i s = .next t → t.faulted = s.faulted ∧ t.faultCause = s.faultCause

/-! ## Construction and teardown (spec/43_lifecycle.md) -/

/-- R138: CONSTRUCT's outcomes in the order of its checks; the last clause is where it completes. -/
def Obligations.ConstructOutcomes : Prop :=
  ∀ s : State, s.Clear →
    (s.constructed = true → ∀ a b c,
      exec (.construct a b c) s = .next (respond (errorResponse .alreadyConstructed) s)) ∧
    (s.constructed = false →
      (∀ b c, exec (.construct .none b c) s = .next (respond (errorResponse .missingHandle) s)) ∧
      (∀ a b c, a.isHandleOrNone = false → exec (.construct a b c) s = programmingError s) ∧
      (∀ h c, exec (.construct (.handle h) .none c) s = .next (respond (errorResponse .missingCurrentDivisor) s)) ∧
      (∀ h b c, b.isNumOrNone = false → exec (.construct (.handle h) b c) s = programmingError s) ∧
      (∀ h b, b.isNum = true →
        exec (.construct (.handle h) b .none) s = .next (respond (errorResponse .missingPowerDivisor) s)) ∧
      (∀ h b c, b.isNum = true → c.isNumOrNone = false →
        exec (.construct (.handle h) b c) s = programmingError s) ∧
      (∀ h d p, numValid d = true → numValid p = true →
        exec (.construct (.handle h) (numOperand d) (numOperand p)) s = .next (respond (okResponse .unit)
          { s with constructed := true, handle := some h, cdiv := some d, pdiv := some p })))

/-- R139: RELEASE completes with the device context gone, and without one ends with `not_constructed`. -/
def Obligations.ReleaseOutcomes : Prop :=
  ∀ s : State, s.Clear →
    (s.constructed = true → exec .release s = .next (respond (okResponse .unit)
      { s with constructed := false, handle := none, cdiv := none, pdiv := none })) ∧
    (s.constructed = false → exec .release s = .next (respond (errorResponse .notConstructed) s))

/-! ## The register bank and its transport (spec/20_memory.md) -/

/-- R44, R46, R49: a register read is the selection `[id]` and then, only if that was answered `ok`, a read of two bytes;
`256 * b[0] + b[1]` of a two-byte answer, `short_read` of any other length, the error of a failed call. Only the history
and the environment change. -/
def Obligations.RegisterReadFrames : Prop :=
  ∀ (s : State) (r : RegId),
    let sel := envWrite s.env s.hist s.handle [regByte r]
    let h1 := s.hist ++ [Event.write s.handle [regByte r] sel.1]
    let rd := envRead sel.2 h1 s.handle 2
    let s2 := { s with env := rd.2, hist := h1 ++ [Event.read s.handle 2 rd.1] }
    (∀ e, sel.1 = .error e → memRead r s = (.error e, { s with env := sel.2, hist := h1 })) ∧
    (sel.1 = .ok →
      (∀ e, rd.1 = .error e → memRead r s = (.error e, s2)) ∧
      (∀ b0 b1, rd.1 = .bytes [b0, b1] →
        ∃ v, memRead r s = (.ok v, s2) ∧ v.toNat = 256 * b0.toNat + b1.toNat) ∧
      (∀ bs, rd.1 = .bytes bs → bs.length ≠ 2 → memRead r s = (.error (.shortRead bs.length), s2)))

/-- R45: a register write is one call of exactly three bytes: the id, bits 15 to 8 and bits 7 to 0 of the value. -/
def Obligations.RegisterWriteFrame : Prop :=
  ∀ (s : State) (r : WritableReg) (v : Word),
    let frame := [regByte (writableReg r), v.extractLsb' 8 8, v.extractLsb' 0 8]
    let a := envWrite s.env s.hist s.handle frame
    memWrite r v s = (a.1, { s with env := a.2, hist := s.hist ++ [Event.write s.handle frame a.1] })

/-- R42, R46: the id bytes of the six registers, which no other byte names, and the byte order: of every value the first
byte is bits 15 to 8 and the second bits 7 to 0, two bytes are the value 256 times the first plus the second, the value
bytes of 0xABCD are `[0xAB, 0xCD]`, and bytes and value convert into each other without loss. -/
def Obligations.RegisterIdsAndByteOrder : Prop :=
  [RegId.configuration, .shuntVoltage, .busVoltage, .power, .current, .calibration].map regByte
    = [0x00#8, 0x01#8, 0x02#8, 0x03#8, 0x04#8, 0x05#8] ∧
  (∀ r, regOfByte (regByte r) = some r) ∧ (∀ b : Byte, 5 < b.toNat → regOfByte b = none) ∧
  (∀ v : Word, wordBytes v = [v.extractLsb' 8 8, v.extractLsb' 0 8]) ∧
  (∀ h l : Byte, (wordOfBytes h l).toNat = 256 * h.toNat + l.toNat) ∧
  wordBytes 0xABCD#16 = [0xAB#8, 0xCD#8] ∧ wordOfBytes 0xAB#8 0xCD#8 = 43981#16 ∧
  (∀ v : Word, answerWord (.bytes (wordBytes v)) = .ok v) ∧
  (∀ h l : Byte, wordBytes (wordOfBytes h l) = [h, l])

/-- R48: what the mock store answers to each frame CORE issues: a scripted call fails and changes nothing; a selection
selects; a write writes one cell and selects it; a read gives the selected cell, big-endian, and changes nothing. -/
def Obligations.MockStoreAnswers : Prop :=
  ∀ (m : MockStore) (hist : List Event) (h : Option Handle),
    let k := hist.length + 1
    (∀ e, m.failures.lookup k = some e →
      (∀ bytes, envWrite (.mockStore m) hist h bytes = (.error e, .mockStore m)) ∧
      (∀ n, envRead (.mockStore m) hist h n = (.error e, .mockStore m))) ∧
    (m.failures.lookup k = none →
      (∀ r, envWrite (.mockStore m) hist h [regByte r] = (.ok, .mockStore { m with sel := r })) ∧
      (∀ v : Word, envWrite (.mockStore m) hist h (0x00#8 :: wordBytes v)
        = (.ok, .mockStore { m with bank := { m.bank with configuration := v }, sel := .configuration })) ∧
      (∀ v : Word, envWrite (.mockStore m) hist h (0x05#8 :: wordBytes v)
        = (.ok, .mockStore { m with bank := { m.bank with calibration := v }, sel := .calibration })) ∧
      envRead (.mockStore m) hist h 2 = (.bytes (wordBytes (bankGet m.bank m.sel)), .mockStore m))

/-! ## The configuration codec (spec/40_config_codec.md, spec/30_encoding.md) -/

/-- R62: the seven masks, pairwise disjoint, together 0xFFFF, and their complements. -/
def Obligations.FieldMasksPartitionTheWord : Prop :=
  configFields.map BitField.mask
    = [0x8000#16, 0x4000#16, 0x2000#16, 0x1800#16, 0x0780#16, 0x0078#16, 0x0007#16] ∧
  configFields.map (fun f => ~~~f.mask)
    = [0x7FFF#16, 0xBFFF#16, 0xDFFF#16, 0xE7FF#16, 0xF87F#16, 0xFF87#16, 0xFFF8#16] ∧
  configFields.Pairwise (fun f g => f.mask &&& g.mask = 0#16) ∧
  (configFields.map BitField.mask).foldl (· ||| ·) 0#16 = 0xFFFF#16

/-- R101, R115: a field that was set reads back as set, and every bit outside it is as it was; RESET's value has bit 15
set and the other bits as they were. -/
def Obligations.FieldUpdateLaws : Prop :=
  (∀ f ∈ configFields, ∀ (v : Word) (c : BitVec f.width),
    getField f (setField f v c) = c ∧ setField f v c &&& ~~~f.mask = v &&& ~~~f.mask) ∧
  (∀ v : Word, setResetBit v &&& 0x7FFF#16 = v &&& 0x7FFF#16 ∧ (setResetBit v).getLsbD 15 = true)

/-- R60, R62: packing and unpacking the configuration word are inverse to each other, so no bit is dropped. -/
def Obligations.ConfigWordRoundTrip : Prop :=
  (∀ v : Word, packConfig (unpackConfig v) = v) ∧ (∀ c : ConfigFields, unpackConfig (packConfig c) = c)

/-- R63, R64, R65, R68: the enumeration tables code by code, the gain shifts, and for the three bijective ones that the
setter's code of what a code decodes to is that code. -/
def Obligations.EnumerationTables : Prop :=
  [0#1, 1#1].map decBrng = [16, 32] ∧
  [0#2, 1#2, 2#2, 3#2].map decPg = [1, 2, 4, 8] ∧ [1, 2, 4, 8].map gainShift = [some 3, some 2, some 1, some 0] ∧
  (List.range 16).map (fun k => decAdc (BitVec.ofNat 4 k)) = adcSamplesTable.zip adcBitsTable ∧
  (List.range 8).map (fun k => decMode (BitVec.ofNat 3 k)) = modeNames ∧
  (∀ c, encBrng (.int (decBrng c)) = some c) ∧ (∀ c, encPg (.int (decPg c)) = some c) ∧
  (∀ c, encMode (.sym (decMode c)) = some c)

/-- R66, R67: the duplicate ADC codes decode alike; the code an ADC setter writes is the smallest that decodes to its pair;
every pair some code decodes to has one, and any other operands have none. -/
def Obligations.AdcDuplicatesAndSmallestCode : Prop :=
  ((∀ c ∈ [0#4, 4#4], decAdc c = (1, 9)) ∧ (∀ c ∈ [1#4, 5#4], decAdc c = (1, 10)) ∧
    (∀ c ∈ [2#4, 6#4], decAdc c = (1, 11)) ∧ (∀ c ∈ [3#4, 7#4, 8#4], decAdc c = (1, 12))) ∧
  (∀ a b c, encAdc a b = some c →
    a = .int (decAdc c).1 ∧ b = .int (decAdc c).2 ∧ ∀ c', decAdc c' = decAdc c → c.toNat ≤ c'.toNat) ∧
  (∀ c, (encAdc (.int (decAdc c).1) (.int (decAdc c).2)).isSome = true)

/-- R104: RESET reads register 0 and writes it back with bit 15 set and bits 14 to 0 as read; a failed read issues no
write. -/
def Obligations.ResetOutcomes : Prop :=
  ∀ s : State, s.Ready → SetterRuns .reset (fun cfg => cfg ||| 0x8000#16) s

/-- R105, R107: GET_BRNG completes with 32 or 16 as bit 13 says and GET_PGA with the gain 1, 2, 4, 8 of bits 12 to 11; a
failed read ends them. -/
def Obligations.RangeAndGainGetters : Prop :=
  ∀ s : State, s.Ready →
    GetterRuns .getBrng .configuration (fun cfg => .int (if cfg.getLsbD 13 then 32 else 16)) s ∧
    GetterRuns .getPga .configuration (fun cfg => .int (2 ^ (cfg.toNat / 2048 % 4))) s

/-- R65, R109, R111: GET_BADC and GET_SADC complete with the pair of R65's row for bits 10 to 7 and 6 to 3; a failed read
ends them. -/
def Obligations.AdcGetters : Prop :=
  ∀ s : State, s.Ready →
    GetterRuns .getBadc .configuration (fun cfg => .pair (adcSamplesTable.getD (cfg.toNat / 128 % 16) 0)
      (adcBitsTable.getD (cfg.toNat / 128 % 16) 0)) s ∧
    GetterRuns .getSadc .configuration (fun cfg => .pair (adcSamplesTable.getD (cfg.toNat / 8 % 16) 0)
      (adcBitsTable.getD (cfg.toNat / 8 % 16) 0)) s

/-- R113: GET_MODE completes with the name of R68's row for bits 2 to 0; a failed read ends it. -/
def Obligations.ModeGetter : Prop :=
  ∀ s : State, s.Ready →
    GetterRuns .getMode .configuration (fun cfg => .sym (modeNames.getD (cfg.toNat % 8) "")) s

/-- R106: SET_BRNG 16 clears bit 13, SET_BRNG 32 sets it, every other bit as read; every other operand faults. -/
def Obligations.SetBrngOutcomes : Prop :=
  ∀ s : State, s.Ready →
    SetterRuns (.setBrng (.int 16)) (fun cfg => cfg &&& 0xDFFF#16) s ∧
    SetterRuns (.setBrng (.int 32)) (fun cfg => cfg &&& 0xDFFF#16 ||| 0x2000#16) s ∧
    (∀ a, a ≠ .int 16 → a ≠ .int 32 → exec (.setBrng a) s = programmingError s)

/-- R108: SET_PGA writes the code of its gain into bits 12 to 11; every operand but the four gains faults. -/
def Obligations.SetPgaOutcomes : Prop :=
  ∀ s : State, s.Ready →
    SetterRuns (.setPga (.int 1)) (fun cfg => cfg &&& 0xE7FF#16) s ∧
    SetterRuns (.setPga (.int 2)) (fun cfg => cfg &&& 0xE7FF#16 ||| 0x0800#16) s ∧
    SetterRuns (.setPga (.int 4)) (fun cfg => cfg &&& 0xE7FF#16 ||| 0x1000#16) s ∧
    SetterRuns (.setPga (.int 8)) (fun cfg => cfg &&& 0xE7FF#16 ||| 0x1800#16) s ∧
    (∀ a, a ≠ .int 1 → a ≠ .int 2 → a ≠ .int 4 → a ≠ .int 8 → exec (.setPga a) s = programmingError s)

/-- R110, R112, R67: the ADC setters write the code of their pair into bits 10 to 7 and 6 to 3; every operand pair outside
R67's table faults. -/
def Obligations.SetAdcOutcomes : Prop :=
  ∀ s : State, s.Ready →
    (∀ row ∈ adcEncodeTable,
      SetterRuns (.setBadc (.int row.1.1) (.int row.1.2))
        (fun cfg => cfg &&& 0xF87F#16 ||| BitVec.ofNat 16 (row.2 * 128)) s ∧
      SetterRuns (.setSadc (.int row.1.1) (.int row.1.2))
        (fun cfg => cfg &&& 0xFF87#16 ||| BitVec.ofNat 16 (row.2 * 8)) s) ∧
    (∀ a b, (∀ row ∈ adcEncodeTable, ¬ (a = .int row.1.1 ∧ b = .int row.1.2)) →
      exec (.setBadc a b) s = programmingError s ∧ exec (.setSadc a b) s = programmingError s)

/-- R114: SET_MODE writes its name's place in R68 into bits 2 to 0; every operand but the eight names faults. -/
def Obligations.SetModeOutcomes : Prop :=
  ∀ s : State, s.Ready →
    (∀ k, k < 8 → SetterRuns (.setMode (.sym (modeNames.getD k "")))
      (fun cfg => cfg &&& 0xFFF8#16 ||| BitVec.ofNat 16 k) s) ∧
    (∀ a, (∀ n ∈ modeNames, a ≠ .sym n) → exec (.setMode a) s = programmingError s)

/-- R103, R104, R74: RESET, and every configuration setter with every operand it has a code for, whose calls all succeed
issue exactly three, in this order; the write is issued even when it changes nothing. (The answers stand in the oracle's
lists of drawn answers, the model's own data: log 2.) -/
def Obligations.SettersIssueThreeCalls : Prop :=
  ∀ (s : State) (writes : List WriteAnswer) (reads : List ReadAnswer) (cfg : Word),
    s.Ready → s.env = .oracle (.ok :: .ok :: writes) (.bytes (wordBytes cfg) :: reads) →
    ∀ p ∈ setterWords,
      exec p.1 s = .next (respond (okResponse .unit) { s with
        env := .oracle writes reads
        hist := s.hist ++ [.write s.handle [0x00#8] .ok, .read s.handle 2 (.bytes (wordBytes cfg)),
          .write s.handle (0x00#8 :: wordBytes (p.2 cfg)) .ok] })

/-- R115, R48: under the mock store with no scripted failure, a setter followed by its getter returns the setter's
operand; outside the field the configuration word, and every other register, is as it was. -/
def Obligations.SetThenGetReturnsOperand : Prop :=
  ∀ (s : State) (m : MockStore), s.Ready → s.env = .mockStore m → m.failures = [] →
    ∀ p ∈ fieldPairs, ∃ t u b,
      exec p.set s = .next t ∧ t.rsp = some (okResponse .unit) ∧
      exec p.get t = .next u ∧ u.rsp = some (okResponse p.value) ∧ u.bank = some b ∧
      b = { m.bank with configuration := b.configuration } ∧
      b.configuration &&& ~~~p.mask = m.bank.configuration &&& ~~~p.mask

/-! ## The calibration store (spec/41_calibration.md) -/

/-- R117: GET_CAL completes with the raw value of register 5, unsigned; a failed read ends it. -/
def Obligations.CalibrationGetter : Prop :=
  ∀ s : State, s.Ready → GetterRuns .getCal .calibration (fun v => .int v.toNat) s

/-- R118: SET_CAL rejects a value outside 0 to 65535 and an operand of another kind before any call, and else completes
with one write of the value to register 5, or with the write's error. -/
def Obligations.SetCalOutcomes : Prop :=
  ∀ s : State, s.Ready →
    (∀ v : Int, v < 0 ∨ 65535 < v → exec (.setCal (.int v)) s = .next (respond (errorResponse .calOutOfRange) s)) ∧
    (∀ a, a.isInt = false → exec (.setCal a) s = programmingError s) ∧
    (∀ (w : Word) (s1 : State),
      (memWrite .calibration w s = (.ok, s1) →
        exec (.setCal (.int w.toNat)) s = .next (respond (okResponse .unit) s1)) ∧
      (∀ e, memWrite .calibration w s = (.error e, s1) →
        exec (.setCal (.int w.toNat)) s = .next (respond (errorResponse (.transport e)) s1)))

/-- R119, R121: the divisor getters complete with the stored divisor, kind and value unchanged, and no call. R120, R122:
the divisor setters complete for every integer and every finite binary64, zero and negative included, change that divisor
only, and fault on any other operand. -/
def Obligations.DivisorGettersAndSetters : Prop :=
  ∀ s : State, s.Ready →
    (∀ d, s.cdiv = some d → exec .getCdiv s = .next (respond (okResponse (.num d)) s)) ∧
    (∀ d, s.pdiv = some d → exec .getPdiv s = .next (respond (okResponse (.num d)) s)) ∧
    (∀ d, numValid d = true →
      exec (.setCdiv (numOperand d)) s = .next (respond (okResponse .unit) { s with cdiv := some d }) ∧
      exec (.setPdiv (numOperand d)) s = .next (respond (okResponse .unit) { s with pdiv := some d })) ∧
    (∀ a, a.isNum = false →
      exec (.setCdiv a) s = programmingError s ∧ exec (.setPdiv a) s = programmingError s)

/-! ## The measurement decoder (spec/42_measurement.md) -/

/-- R124: `fl64` of a positive rational is the nearest finite binary64, the even significand on a tie, and an infinity
exactly from half a step above the largest finite value on; `fl64` of the negated rational is the same value with the sign
bit set; `fl64` of zero is the zero of the given sign. (The layout of binary64 is presumed, log 10; that a zero has the
sign its operands give is R135's "raw 0 with a negative divisor gives -0.0" and log 10.) -/
def Obligations.RoundingIsNearestTiesToEven : Prop :=
  (∀ num den : Nat, 0 < num → 0 < den →
    let x := fl64 false num den
    let r : ℚ := num / den
    x.isNeg = false ∧
    (x.isFinite = false ↔ (overflowBound : ℚ) ≤ r) ∧
    (x.isFinite = false → x = 0x7FF0000000000000#64) ∧
    (x.isFinite = true → ∀ y : F64, y.isFinite = true →
      |x.value - r| ≤ |y.value - r| ∧
      (|x.value - r| = |y.value - r| → y.value ≠ x.value → x.toNat % 2 = 0))) ∧
  (∀ num den : Nat, 0 < den → fl64 true num den = fl64 false num den ||| 0x8000000000000000#64) ∧
  (∀ den : Nat, 0 < den → fl64 false 0 den = 0#64 ∧ fl64 true 0 den = 0x8000000000000000#64)

/-- R124: the two constants' exact values, and a count times a constant is one rounding of the exact product. -/
def Obligations.ScaleConstantsAndProducts : Prop :=
  cShunt.value = 5764607523034235 / 2 ^ 59 ∧ cBus.value = 1152921504606847 / 2 ^ 58 ∧
  (∀ n : Nat, mulCount n cShunt = fl64 false (n * 5764607523034235) (2 ^ 59)) ∧
  (∀ n : Nat, 0 < n → mulCount (-(n : Int)) cShunt = fl64 true (n * 5764607523034235) (2 ^ 59)) ∧
  (∀ n : Nat, n < 8192 → mulCount n cBus = fl64 false (n * 1152921504606847) (2 ^ 58))

/-- R127: every shunt pattern that passes the pad check counts `sext_16(raw)`; the gains are 1, 2, 4, 8. -/
def Obligations.ShuntCountIsSignExtension : Prop :=
  ∀ (gain : Nat) (raw : Word) (n : Int), shuntCount gain raw = some n →
    (gain = 1 ∨ gain = 2 ∨ gain = 4 ∨ gain = 8) ∧ n = raw.toInt

/-- R71, R128: exactly which patterns are invalid. -/
def Obligations.InvalidShuntPatterns : Prop :=
  ∀ raw : Word,
    (decodeShunt 1 raw = .error .invalidShuntVoltageValue ↔ 0x1FFF < raw.toNat ∧ raw.toNat < 0xE000) ∧
    (decodeShunt 2 raw = .error .invalidShuntVoltageValue ↔ 0x3FFF < raw.toNat ∧ raw.toNat < 0xC000) ∧
    (∃ x, decodeShunt 4 raw = .ok x) ∧ (∃ x, decodeShunt 8 raw = .ok x) ∧
    (∀ gain, gain ≠ 1 → gain ≠ 2 → gain ≠ 4 → gain ≠ 8 →
      decodeShunt gain raw = .error .invalidShuntVoltageValue)

/-- R137: for one gain the decode is monotone in the count, and a pattern with sign bit 0 is its count. (The order of
binary64 values rests on their layout, presumed: log 10.) -/
def Obligations.ShuntDecodeMonotoneAndLossless : Prop :=
  (∀ gain raw1 raw2 c1 c2 r1 r2, shuntCount gain raw1 = some c1 → shuntCount gain raw2 = some c2 → c1 ≤ c2 →
    decodeShunt gain raw1 = .ok r1 → decodeShunt gain raw2 = .ok r2 → r1.value ≤ r2.value) ∧
  (∀ gain shift (raw : Word) c, gainShift gain = some shift → shuntCount gain raw = some c → raw.getLsbD 15 = false →
    0 ≤ c ∧ BitVec.ofNat 16 (c.toNat % 2 ^ (16 - shift)) = raw)

/-- R131: SHUNT_VOLTAGE reads the configuration, then the shunt register, and completes with the decode at the gain just
read, or with the validation error after both reads; a failed read ends it. -/
def Obligations.ShuntVoltageOutcomes : Prop :=
  ∀ (s s1 : State), s.Ready →
    (∀ e, memRead .configuration s = (.error e, s1) →
      exec .shuntVoltage s = .next (respond (errorResponse (.transport e)) s1)) ∧
    (∀ cfg, memRead .configuration s = (.ok cfg, s1) → ∀ s2,
      (∀ e, memRead .shuntVoltage s1 = (.error e, s2) →
        exec .shuntVoltage s = .next (respond (errorResponse (.transport e)) s2)) ∧
      (∀ raw, memRead .shuntVoltage s1 = (.ok raw, s2) →
        (∀ n, shuntCount (2 ^ (cfg.toNat / 2048 % 4)) raw = some n →
          exec .shuntVoltage s = .next (respond (okResponse (.f64 (mulCount n cShunt))) s2)) ∧
        (shuntCount (2 ^ (cfg.toNat / 2048 % 4)) raw = none →
          exec .shuntVoltage s = .next (respond (errorResponse .invalidShuntVoltageValue) s2))))

/-- R132, R125: BUS_VOLTAGE completes with the 13-bit count times C_BUS; a failed read ends it. -/
def Obligations.BusVoltageOutcomes : Prop :=
  ∀ s : State, s.Ready →
    GetterRuns .busVoltage .busVoltage (fun raw => .f64 (mulCount (raw.toNat / 8 : Nat) cBus)) s

/-- R133, R134: CONV_READY and MATH_OVF complete with bit 1 and bit 0 of register 2, and with false on every transport
failure, short reads included. -/
def Obligations.FlagOperationsNeverFail : Prop :=
  ∀ (s s1 : State), s.Ready →
    (∀ raw : Word, memRead .busVoltage s = (.ok raw, s1) →
      exec .convReady s = .next (respond (okResponse (.bool (raw.toNat / 2 % 2 == 1))) s1) ∧
      exec .mathOvf s = .next (respond (okResponse (.bool (raw.toNat % 2 == 1))) s1)) ∧
    (∀ e, memRead .busVoltage s = (.error e, s1) →
      exec .convReady s = .next (respond (okResponse (.bool false)) s1) ∧
      exec .mathOvf s = .next (respond (okResponse (.bool false)) s1))

/-- R135, R136: CURRENT divides register 4 by the current divisor and POWER register 3 by the power divisor, after the
read, and complete with the quotient or with the arithmetic error; a failed read ends them. -/
def Obligations.ScaledOperationOutcomes : Prop :=
  ∀ s : State, s.Ready →
    (∀ d, s.cdiv = some d → ScaledRuns .current .current d .current s) ∧
    (∀ d, s.pdiv = some d → ScaledRuns .power .power d .power s)

/-- R130, R129: which divisors `scale` rejects, and that it answers a value for every other one. An integer is out of
range exactly from `overflowBound`, 2^1024 - 2^970, on. (The layout of binary64 is presumed, log 10; a stored divisor that is
not finite is taken as out of range, log 9.) -/
def Obligations.ScaleRejectsDivisors : Prop :=
  ∀ (raw : Word) (w : Which),
    (∀ i : Int, scale raw (.int i) w = .error (.zeroDivisor w) ↔ i = 0) ∧
    (∀ i : Int, scale raw (.int i) w = .error (.divisorOutOfRange w) ↔ overflowBound ≤ i.natAbs) ∧
    (∀ x : F64, scale raw (.f64 x) w = .error (.zeroDivisor w) ↔ x = 0#64 ∨ x = 0x8000000000000000#64) ∧
    (∀ x : F64, x.isFinite = true → scale raw (.f64 x) w ≠ .error (.divisorOutOfRange w)) ∧
    (∀ i : Int, i ≠ 0 → i.natAbs < overflowBound → ∃ x, scale raw (.int i) w = .ok x) ∧
    (∀ y : F64, y.isFinite = true → y ≠ 0#64 → y ≠ 0x8000000000000000#64 → ∃ x, scale raw (.f64 y) w = .ok x)

/-- R129: an integer divisor converts by one `fl64`, a binary64 divisor is itself. R130, R124: a result of `scale` has
the sign of the converted divisor, for a raw value of 0 too (R135: -0.0); it is the infinity of that sign exactly where the
exact quotient of the unsigned raw value and the converted divisor reaches `overflowBound` in magnitude (the model's reading,
log 11); else no finite binary64 is nearer to that quotient, and on a tie its significand is even. (The
layout of binary64 is presumed, log 10.) -/
def Obligations.ScaledResultIsNearestQuotient : Prop :=
  (∀ i : Int, numToF64 (.int i) = fl64 (decide (i < 0)) i.natAbs 1) ∧ (∀ x : F64, numToF64 (.f64 x) = x) ∧
  ∀ (raw : Word) (d : Sys2Proof.Num) (w : Which) (x : F64), scale raw d w = .ok x →
    let r : ℚ := raw.toNat / (numToF64 d).value
    x.isNeg = (numToF64 d).isNeg ∧
    (x.isFinite = false ↔ (overflowBound : ℚ) ≤ |r|) ∧
    (x.isFinite = false → x = if x.isNeg then 0xFFF0000000000000#64 else 0x7FF0000000000000#64) ∧
    (x.isFinite = true → ∀ y : F64, y.isFinite = true →
      |x.value - r| ≤ |y.value - r| ∧
      (|x.value - r| = |y.value - r| → y.value ≠ x.value → x.toNat % 2 = 0))

/-! ## Frames: what an operation leaves unchanged -/

/-- R21 ("written by"), frame: an operation other than CONSTRUCT, RELEASE and the divisor setters leaves the device
context, and SET_CDIV and SET_PDIV all of it but their divisor. (That no operation touches the host's coming moves is the
model's choice, log 1.) -/
def Obligations.DeviceContextFrame : Prop :=
  ∀ (s t : State) (i : Instr), exec i s = .next t →
    t.inbox = s.inbox ∧
    (changesContext i = false →
      t.constructed = s.constructed ∧ t.handle = s.handle ∧ t.cdiv = s.cdiv ∧ t.pdiv = s.pdiv) ∧
    (∀ a, i = .setCdiv a → t.constructed = s.constructed ∧ t.handle = s.handle ∧ t.pdiv = s.pdiv) ∧
    (∀ a, i = .setPdiv a → t.constructed = s.constructed ∧ t.handle = s.handle ∧ t.cdiv = s.cdiv)

/-- R149: an error result leaves every field of S as it was but S.rsp. -/
def Obligations.ErrorResultChangesOnlyResponse : Prop :=
  ∀ (s t : State) (i : Instr) (r : Response), exec i s = .next t → t.responses = s.responses ++ [r] → r.status ≠ 0#3 →
    t = { s with rsp := some r, responses := s.responses ++ [r], hist := t.hist, env := t.env }

/-- R28: an operation writes one response at its end, or, where it faults or is refused, none. -/
def Obligations.OneResponsePerOperation : Prop :=
  ∀ (s t : State) (i : Instr), exec i s = .next t →
    (s.Clear ∧ t.Clear ∧ ∃ r, t.rsp = some r ∧ t.responses = s.responses ++ [r]) ∨
    (¬ t.Clear ∧ t.rsp = s.rsp ∧ t.responses = s.responses ∧ t.hist = s.hist ∧ t.env = s.env)

/-- R165: an operation appends its calls to the history, at most the number of R165, and exactly that number when it
returns a value and no call failed. -/
def Obligations.CallsPerOperation : Prop :=
  ∀ (s t : State) (i : Instr), exec i s = .next t →
    ∃ evs, t.hist = s.hist ++ evs ∧ evs.length ≤ callCount i ∧
      (∀ r, t.responses = s.responses ++ [r] → r.status = 0#3 → evs.all answered = true → evs.length = callCount i)

/-- R48, R43, frame over the chip's registers under the mock store: the configuration setters and RESET may change
register 0 only, SET_CAL register 5 only, and every other operation no register. -/
def Obligations.MockRegistersFrame : Prop :=
  ∀ (s t : State) (i : Instr) (b : Bank), exec i s = .next t → s.bank = some b → ∃ b', t.bank = some b' ∧
    (callCount i = 3 → b' = { b with configuration := b'.configuration }) ∧
    (callCount i = 1 → b' = { b with calibration := b'.calibration }) ∧
    (callCount i ≠ 3 → callCount i ≠ 1 → b' = b)

/-- R25: no divisor is ever in a transport frame: two states that differ in the divisors they hold give the same calls,
answers and environment, whatever the operation. (A divisor that is an operand is the same in both; that CONSTRUCT, SET_CDIV
and SET_PDIV make no call is CallsPerOperation.) -/
def Obligations.DivisorsNeverTransmitted : Prop :=
  ∀ (s t t' : State) (i : Instr) (c p : Option Sys2Proof.Num), exec i s = .next t →
    exec i { s with cdiv := c, pdiv := p } = .next t' → t'.hist = t.hist ∧ t'.env = t.env

/-! ## Invariants and runs -/

/-- The three invariants hold at reset (R156): the device context and the marks are coherent, no response is held and no
transaction is recorded. -/
def Obligations.ResetMeetsInvariants : Prop :=
  State.reset.Coherent ∧ State.reset.ResponsesOk ∧ transactionsOk State.reset.hist = true

/-- R22, R23, R24, R26: every step keeps the device context all there or not there at all. -/
def Obligations.StepKeepsCoherence : Prop :=
  ∀ s t : State, s.Coherent → step s = .next t → t.Coherent

/-- R81, R82: every step keeps the responses well formed: value exactly with status 0, else the status of the info's kind;
and the status numbers of the kinds: transport 1, validation 2, configuration 3, arithmetic 4. -/
def Obligations.StepKeepsResponsesWellFormed : Prop :=
  (∀ s t : State, s.ResponsesOk → step s = .next t → t.ResponsesOk) ∧
  (∀ v, (okResponse v).status = 0#3) ∧
  (∀ e, (errorResponse (.transport e)).status = 1#3) ∧
  (∀ i ∈ [Info.calOutOfRange, .invalidShuntVoltageValue], (errorResponse i).status = 2#3) ∧
  (∀ i ∈ [Info.missingHandle, .missingCurrentDivisor, .missingPowerDivisor, .notConstructed, .alreadyConstructed],
    (errorResponse i).status = 3#3) ∧
  (∀ w, ∀ i ∈ [Info.zeroDivisor w, .divisorOutOfRange w], (errorResponse i).status = 4#3) ∧
  (∀ i, (errorResponse i).status = infoStatus i)

/-- R43, R44, R74: every step keeps the history a sequence of whole transactions with legal frames. -/
def Obligations.StepKeepsTransactionsLegal : Prop :=
  ∀ s t : State, transactionsOk s.hist = true → step s = .next t → transactionsOk t.hist = true

/-- No step stops: in a coherent state every step answers a next state. This is the model's own: a fault, a refusal and an
error result of CORE are next states (log 8), a step with no move left changes nothing (log 1), and every transport call
answers (log 16). -/
def Obligations.EveryStepAnswersNextState : Prop :=
  ∀ s : State, s.Coherent → ∃ t, step s = .next t

/-- R168: from reset, in any environment, every finite sequence of commands runs to its end; and so does every finite
sequence of host moves, block resets among them. (That a step runs one move of `inbox` is log 1, that a block reset keeps
the record is log 6, that every call answers is log 16: the model's own.) -/
def Obligations.EveryRunEnds : Prop :=
  (∀ (env : Env) (commands : List Command), ∃ t,
    RunEnds env commands t ∧ t.Coherent ∧ transactionsOk t.hist = true) ∧
  (∀ (env : Env) (moves : List HostMove), ∃ t,
    core.run moves.length (startWith env moves) = .next t ∧ t.inbox = [] ∧ t.Coherent ∧ transactionsOk t.hist = true)

/-- R146, R168: a run that after some of its commands has faulted or been refused is not a successful run, whatever commands
follow; its marks and its cause are still set at the end, and the commands that follow make no call and give no
response. -/
def Obligations.FaultedRunsStayUnsuccessful : Prop :=
  ∀ (env : Env) (commands : List Command) (k : Nat) (t u : State), k ≤ commands.length →
    core.run k (launch env commands) = .next t → ¬ t.Clear → RunEnds env commands u →
    ¬ SuccessfulRun env commands u ∧
    (t.faulted = true → u.faulted = true ∧ u.faultCause = t.faultCause) ∧ (t.refused = true → u.refused = true) ∧
    u.hist = t.hist ∧ u.responses = t.responses ∧ u.rsp = t.rsp
end

