-- ==== Sys2Proof/Laws/State.lean ====
section
/-! SUPPORT. What each state update of Machine/Ops.lean leaves in each field: one lemma per field that matters, true by
rfl, so that no later proof unfolds a record update. -/

namespace Sys2Proof.Machine

/-! ## respond -/

@[simp] theorem respond_constructed (r : Response) (s : State) : (respond r s).constructed = s.constructed := rfl
@[simp] theorem respond_handle (r : Response) (s : State) : (respond r s).handle = s.handle := rfl
@[simp] theorem respond_cdiv (r : Response) (s : State) : (respond r s).cdiv = s.cdiv := rfl
@[simp] theorem respond_pdiv (r : Response) (s : State) : (respond r s).pdiv = s.pdiv := rfl
@[simp] theorem respond_faulted (r : Response) (s : State) : (respond r s).faulted = s.faulted := rfl
@[simp] theorem respond_faultCause (r : Response) (s : State) : (respond r s).faultCause = s.faultCause := rfl
@[simp] theorem respond_refused (r : Response) (s : State) : (respond r s).refused = s.refused := rfl
@[simp] theorem respond_rsp (r : Response) (s : State) : (respond r s).rsp = some r := rfl
@[simp] theorem respond_hist (r : Response) (s : State) : (respond r s).hist = s.hist := rfl
@[simp] theorem respond_responses (r : Response) (s : State) : (respond r s).responses = s.responses ++ [r] := rfl
@[simp] theorem respond_env (r : Response) (s : State) : (respond r s).env = s.env := rfl
@[simp] theorem respond_inbox (r : Response) (s : State) : (respond r s).inbox = s.inbox := rfl

/-! ## blockReset -/

@[simp] theorem blockReset_constructed (s : State) : (blockReset s).constructed = false := rfl
@[simp] theorem blockReset_handle (s : State) : (blockReset s).handle = none := rfl
@[simp] theorem blockReset_cdiv (s : State) : (blockReset s).cdiv = none := rfl
@[simp] theorem blockReset_pdiv (s : State) : (blockReset s).pdiv = none := rfl
@[simp] theorem blockReset_faulted (s : State) : (blockReset s).faulted = false := rfl
@[simp] theorem blockReset_faultCause (s : State) : (blockReset s).faultCause = none := rfl
@[simp] theorem blockReset_refused (s : State) : (blockReset s).refused = false := rfl
@[simp] theorem blockReset_rsp (s : State) : (blockReset s).rsp = none := rfl
@[simp] theorem blockReset_hist (s : State) : (blockReset s).hist = s.hist := rfl
@[simp] theorem blockReset_responses (s : State) : (blockReset s).responses = s.responses := rfl
@[simp] theorem blockReset_env (s : State) : (blockReset s).env = s.env := rfl
@[simp] theorem blockReset_inbox (s : State) : (blockReset s).inbox = s.inbox := rfl

/-! ## transportWrite: only the environment and the history change -/

@[simp] theorem transportWrite_answer (bytes : List Byte) (s : State) :
    (transportWrite bytes s).1 = (envWrite s.env s.hist s.handle bytes).1 := rfl
@[simp] theorem transportWrite_constructed (bytes : List Byte) (s : State) : (transportWrite bytes s).2.constructed = s.constructed := rfl
@[simp] theorem transportWrite_handle (bytes : List Byte) (s : State) : (transportWrite bytes s).2.handle = s.handle := rfl
@[simp] theorem transportWrite_cdiv (bytes : List Byte) (s : State) : (transportWrite bytes s).2.cdiv = s.cdiv := rfl
@[simp] theorem transportWrite_pdiv (bytes : List Byte) (s : State) : (transportWrite bytes s).2.pdiv = s.pdiv := rfl
@[simp] theorem transportWrite_faulted (bytes : List Byte) (s : State) : (transportWrite bytes s).2.faulted = s.faulted := rfl
@[simp] theorem transportWrite_faultCause (bytes : List Byte) (s : State) : (transportWrite bytes s).2.faultCause = s.faultCause := rfl
@[simp] theorem transportWrite_refused (bytes : List Byte) (s : State) : (transportWrite bytes s).2.refused = s.refused := rfl
@[simp] theorem transportWrite_rsp (bytes : List Byte) (s : State) : (transportWrite bytes s).2.rsp = s.rsp := rfl
@[simp] theorem transportWrite_hist (bytes : List Byte) (s : State) :
    (transportWrite bytes s).2.hist =
    s.hist ++ [.write s.handle bytes (envWrite s.env s.hist s.handle bytes).1] := rfl
@[simp] theorem transportWrite_responses (bytes : List Byte) (s : State) : (transportWrite bytes s).2.responses = s.responses := rfl
@[simp] theorem transportWrite_env (bytes : List Byte) (s : State) :
    (transportWrite bytes s).2.env = (envWrite s.env s.hist s.handle bytes).2 := rfl
@[simp] theorem transportWrite_inbox (bytes : List Byte) (s : State) : (transportWrite bytes s).2.inbox = s.inbox := rfl

/-! ## transportRead: only the environment and the history change -/

@[simp] theorem transportRead_answer (n : Nat) (s : State) :
    (transportRead n s).1 = (envRead s.env s.hist s.handle n).1 := rfl
@[simp] theorem transportRead_constructed (n : Nat) (s : State) : (transportRead n s).2.constructed = s.constructed := rfl
@[simp] theorem transportRead_handle (n : Nat) (s : State) : (transportRead n s).2.handle = s.handle := rfl
@[simp] theorem transportRead_cdiv (n : Nat) (s : State) : (transportRead n s).2.cdiv = s.cdiv := rfl
@[simp] theorem transportRead_pdiv (n : Nat) (s : State) : (transportRead n s).2.pdiv = s.pdiv := rfl
@[simp] theorem transportRead_faulted (n : Nat) (s : State) : (transportRead n s).2.faulted = s.faulted := rfl
@[simp] theorem transportRead_faultCause (n : Nat) (s : State) : (transportRead n s).2.faultCause = s.faultCause := rfl
@[simp] theorem transportRead_refused (n : Nat) (s : State) : (transportRead n s).2.refused = s.refused := rfl
@[simp] theorem transportRead_rsp (n : Nat) (s : State) : (transportRead n s).2.rsp = s.rsp := rfl
@[simp] theorem transportRead_hist (n : Nat) (s : State) :
    (transportRead n s).2.hist =
    s.hist ++ [.read s.handle n (envRead s.env s.hist s.handle n).1] := rfl
@[simp] theorem transportRead_responses (n : Nat) (s : State) : (transportRead n s).2.responses = s.responses := rfl
@[simp] theorem transportRead_env (n : Nat) (s : State) :
    (transportRead n s).2.env = (envRead s.env s.hist s.handle n).2 := rfl
@[simp] theorem transportRead_inbox (n : Nat) (s : State) : (transportRead n s).2.inbox = s.inbox := rfl

end Sys2Proof.Machine
end

