-- ==== Sys2Proof/Laws/Ops.lean ====
section
/-! SUPPORT. What each shared operation can do, once: the transport calls it adds, what it leaves alone, and how an
operation can end (`Ending`), which `exec_ending` proves of every operation. Later proofs cite these and unfold no
meaning. -/

namespace Sys2Proof.Machine

/-! ## Whole transactions -/

theorem transactionsOk_append (a b : List Event) (ha : transactionsOk a = true) (hb : transactionsOk b = true) :
    transactionsOk (a ++ b) = true := by
  induction a using transactionsOk.induct with
  | case1 => simpa using hb
  | case2 => simp_all [transactionsOk]
  | case3 => simp_all [transactionsOk]
  | case4 => simp_all [transactionsOk]
  | case5 a h0 h1 h2 h3 =>
    rw [transactionsOk] at ha
    · cases ha
    all_goals assumption

/-- From `s`, exactly the calls `evs` were made: whole transactions appended to the history; nothing else changed but the
environment. -/
structure Calls (s t : State) (evs : List Event) : Prop where
  frame : t = { s with env := t.env, hist := s.hist ++ evs }
  whole : transactionsOk evs = true

theorem Calls.refl (s : State) : Calls s s [] := ⟨by simp, rfl⟩

theorem Calls.trans {s t u : State} {e1 e2 : List Event} (h1 : Calls s t e1) (h2 : Calls t u e2) :
    Calls s u (e1 ++ e2) := by
  refine ⟨?_, transactionsOk_append _ _ h1.whole h2.whole⟩
  have e := h2.frame
  rw [h1.frame] at e
  rw [e]
  simp

/-! ## The register bank -/

theorem regByte_le (r : RegId) : (regByte r).toNat ≤ 5 := by cases r <;> decide

/-- A register read: what it answers and what it leaves, in the three cases of R44. -/
theorem memRead_cases (r : RegId) (s : State) :
    (∃ e, (memRead r s).1 = .error e ∧
      Calls s (memRead r s).2 [.write s.handle [regByte r] (.error e)]) ∨
    (∃ a, (memRead r s).1 = answerWord a ∧
      Calls s (memRead r s).2 [.write s.handle [regByte r] .ok, .read s.handle 2 a]) := by
  have hle := regByte_le r
  rcases h : envWrite s.env s.hist s.handle [regByte r] with ⟨_ | e, env'⟩
  · refine .inr ⟨(envRead env' (s.hist ++ [.write s.handle [regByte r] .ok]) s.handle 2).1, ?_, ?_, ?_⟩ <;>
      simp [memRead, transportWrite, transportRead, h, transactionsOk, hle]
  · refine .inl ⟨e, ?_, ?_, ?_⟩ <;> simp [memRead, transportWrite, h, transactionsOk, hle]

theorem answerWord_ok {a : ReadAnswer} {v : Word} (h : answerWord a = .ok v) : ∃ b0 b1, a = .bytes [b0, b1] := by
  cases a with
  | error e => simp [answerWord] at h
  | bytes bs =>
    match bs, h with
    | [b0, b1], _ => exact ⟨b0, b1, rfl⟩

theorem memRead_calls (r : RegId) (s : State) :
    ∃ evs, Calls s (memRead r s).2 evs ∧ evs.length ≤ 2 ∧
      (∀ v, (memRead r s).1 = .ok v → evs.length = 2) ∧ (evs.all answered = true → evs.length = 2) := by
  rcases memRead_cases r s with ⟨e, h, c⟩ | ⟨a, h, c⟩
  · exact ⟨_, c, by simp, by simp [h], by simp [answered]⟩
  · exact ⟨_, c, by simp, by simp, by simp⟩

theorem memWrite_calls (r : WritableReg) (v : Word) (s : State) :
    Calls s (memWrite r v s).2 [.write s.handle (regByte (writableReg r) :: wordBytes v) (memWrite r v s).1] := by
  refine ⟨by simp [memWrite, transportWrite], ?_⟩
  cases r <;> simp [wordBytes, transactionsOk, writableReg, regByte]

/-- Reads change no register of the mock store. -/
theorem mockFrame_select_bank (m : MockStore) (a : Byte) : (mockFrame m [a]).2.bank = m.bank := by
  simp only [mockFrame]
  split <;> rfl

theorem memRead_bank (r : RegId) (s : State) : (memRead r s).2.bank = s.bank := by
  have hw : (transportWrite [regByte r] s).2.bank = s.bank := by
    cases he : s.env with
    | oracle w rs => cases w <;> simp [State.bank, transportWrite, envWrite, he]
    | mockStore m =>
      have := mockFrame_select_bank m (regByte r)
      simp only [State.bank, transportWrite, envWrite, he, mockWrite]
      split <;> simp_all
  have hr : ∀ u : State, (transportRead 2 u).2.bank = u.bank := by
    intro u
    cases he : u.env with
    | oracle w rs => cases rs <;> simp [State.bank, transportRead, envRead, he]
    | mockStore m => simp [State.bank, transportRead, envRead, he]
  simp only [memRead]
  split
  · rename_i h; rw [← hw, h]
  · rename_i h; rw [hr, ← hw, h]

/-- A write changes at most its own register of the mock store. -/
theorem memWrite_bank (r : WritableReg) (v : Word) (s : State) (b : Bank) (hb : s.bank = some b) :
    ∃ b', (memWrite r v s).2.bank = some b' ∧ (b' = b ∨ b' = bankSet b r v) := by
  have hword : ∀ w : Word, wordOfBytes (BitVec.ofNat 8 (w.toNat / 256)) (w.setWidth 8) = w := by
    intro w
    apply BitVec.eq_of_toNat_eq
    simp only [wordOfBytes, BitVec.toNat_ofNat, BitVec.toNat_setWidth]
    have := w.isLt
    omega
  cases he : s.env with
  | oracle w rs => simp [State.bank, he] at hb
  | mockStore m =>
    simp only [State.bank, he, Option.some.injEq] at hb
    subst hb
    simp only [memWrite, transportWrite, envWrite, he, State.bank, mockWrite]
    split
    · exact ⟨_, rfl, .inl rfl⟩
    · cases r <;> exact ⟨_, rfl, .inr (by simp [mockFrame, wordBytes, writableReg, regByte, writableOfByte, hword])⟩

/-! ## How an operation ends -/

/-- The device context an operation leaves, from the state `u` after its calls. -/
structure ContextStep (i : Instr) (u v : State) : Prop where
  frame : v = { u with constructed := v.constructed, handle := v.handle, cdiv := v.cdiv, pdiv := v.pdiv }
  same : changesContext i = false → v = u
  coherent : u.Coherent → v.Coherent
  setCdiv : ∀ a, i = .setCdiv a → v = { u with cdiv := v.cdiv }
  setPdiv : ∀ a, i = .setPdiv a → v = { u with pdiv := v.pdiv }

theorem ContextStep.refl (i : Instr) (u : State) : ContextStep i u u :=
  ⟨rfl, fun _ => rfl, id, fun _ _ => rfl, fun _ _ => rfl⟩

/-- Which registers of the mock store an operation's calls may change. -/
def BankStep (i : Instr) (s u : State) : Prop :=
  ∀ b, s.bank = some b → ∃ b', u.bank = some b' ∧
    (callCount i = 3 → b' = { b with configuration := b'.configuration }) ∧
    (callCount i = 1 → b' = { b with calibration := b'.calibration }) ∧
    (callCount i ≠ 3 → callCount i ≠ 1 → b' = b)

theorem BankStep.of_eq {i : Instr} {s u : State} (h : u.bank = s.bank) : BankStep i s u := by
  intro b hb
  exact ⟨b, h.trans hb, fun _ => rfl, fun _ => rfl, fun _ _ => rfl⟩

/-- The three ways an operation can end in a next state: refused, faulted, or with a response after its calls. -/
inductive Ending (i : Instr) (s t : State) : Prop where
  | refused (h : ¬ s.Clear) (e : t = { s with refused := true })
  | faulted (h : s.Clear) (w : i.wellFormed = false)
      (e : t = { s with faulted := true, faultCause := some (.programmingError .invalidOperand) })
  | responded (u v : State) (evs : List Event) (r : Response) (h : s.Clear) (calls : Calls s u evs)
      (bound : evs.length ≤ callCount i) (bank : BankStep i s u) (ctx : ContextStep i u v) (e : t = respond r v)
      (ok : responseOk r = true) (exact : r.status = 0#3 → evs.all answered = true → evs.length = callCount i)
      (err : r.status ≠ 0#3 → v = u)

theorem responseOk_okResponse (v : Value) : responseOk (okResponse v) = true := rfl

theorem responseOk_errorResponse (j : Info) : responseOk (errorResponse j) = true := by
  cases j <;> rfl

theorem errorResponse_status_ne (j : Info) : (errorResponse j).status ≠ 0#3 := by
  cases j <;> simp [errorResponse, infoStatus]

/-- An operation that raises an error after its calls. -/
theorem Ending.ofError {i : Instr} {s u t : State} {evs : List Event} {j : Info} (h : s.Clear) (calls : Calls s u evs)
    (bound : evs.length ≤ callCount i) (bank : BankStep i s u) (e : raiseError j u = .next t) : Ending i s t := by
  cases e
  exact .responded u u evs (errorResponse j) h calls bound bank (.refl i u) rfl (responseOk_errorResponse j)
    (fun h0 => absurd h0 (errorResponse_status_ne j)) (fun _ => rfl)

/-- An operation that returns a value after its calls, with a context step. -/
theorem Ending.ofFinish {i : Instr} {s u v t : State} {evs : List Event} {x : Value} (h : s.Clear) (calls : Calls s u evs)
    (bound : evs.length ≤ callCount i) (bank : BankStep i s u) (ctx : ContextStep i u v)
    (exact : evs.all answered = true → evs.length = callCount i) (e : finish x v = .next t) : Ending i s t := by
  cases e
  exact .responded u v evs (okResponse x) h calls bound bank ctx rfl rfl (fun _ => exact) (fun h0 => absurd rfl h0)

theorem Ending.ofFault {i : Instr} {s t : State} (h : s.Clear) (w : i.wellFormed = false)
    (e : programmingError s = .next t) : Ending i s t := by
  cases e
  exact .faulted h w rfl

/-- The checks of R147 that come first: refused, or the operation runs in a clear state. -/
theorem acceptAlways_ending {i : Instr} {s t : State} {op : State → Result} (h : acceptAlways s op = .next t)
    (k : s.Clear → op s = .next t → Ending i s t) : Ending i s t := by
  unfold acceptAlways at h
  split at h
  · rename_i hm
    cases h
    refine .refused ?_ rfl
    simp only [State.Clear, Bool.or_eq_true] at hm ⊢
    rintro ⟨h1, h2⟩
    simp [h1, h2] at hm
  · rename_i hm
    simp only [Bool.or_eq_true, not_or, Bool.not_eq_true] at hm
    exact k hm h

theorem accept_ending {i : Instr} {s t : State} {op : State → Result} (h : accept s op = .next t)
    (k : s.Clear → s.constructed = true → op s = .next t → Ending i s t) : Ending i s t := by
  refine acceptAlways_ending h fun hc h => ?_
  split at h
  · rename_i hs
    exact k hc hs h
  · exact .ofError hc (.refl s) (by simp) (.of_eq rfl) h

/-- A register read as a step: TransportError, or the rest runs after two calls. -/
theorem withRead_cases {r : RegId} {s t : State} {k : Word → State → Result} (h : withRead r s k = .next t) :
    ∃ u evs, Calls s u evs ∧ u.bank = s.bank ∧ evs.length ≤ 2 ∧
      ((∃ e, raiseError (.transport e) u = .next t) ∨ (∃ v, k v u = .next t ∧ evs.length = 2)) := by
  obtain ⟨evs, hc, hl, hok, -⟩ := memRead_calls r s
  have hb := memRead_bank r s
  refine ⟨(memRead r s).2, evs, hc, hb, hl, ?_⟩
  unfold withRead at h
  split at h
  · rename_i v s1 hm
    exact .inr ⟨v, by rw [hm]; exact h, hok v (by rw [hm])⟩
  · rename_i e s1 hm
    exact .inl ⟨e, by rw [hm]; exact h⟩

/-- A register write as the last step: one call, then its answer. -/
theorem finishWrite_cases {r : WritableReg} {v : Word} {s t : State} (h : finishWrite r v s = .next t) :
    ∃ u ev, Calls s u [ev] ∧ u = (memWrite r v s).2 ∧
      (finish .unit u = .next t ∨ ∃ e, raiseError (.transport e) u = .next t) := by
  refine ⟨_, _, memWrite_calls r v s, rfl, ?_⟩
  unfold finishWrite at h
  split at h
  · rename_i s1 hm
    exact .inl (by rw [hm]; exact h)
  · rename_i e s1 hm
    exact .inr ⟨e, by rw [hm]; exact h⟩

/-- A read followed by a value of what was read. -/
theorem readFinish_ending {i : Instr} {r : RegId} {s t : State} {f : Word → Value} (hc : s.Clear) (hn : callCount i = 2)
    (h : withRead r s (fun v s1 => finish (f v) s1) = .next t) : Ending i s t := by
  obtain ⟨u, evs, calls, hb, hl, ⟨e, h⟩ | ⟨v, h, hl2⟩⟩ := withRead_cases h
  · exact .ofError hc calls (by omega) (.of_eq hb) h
  · exact .ofFinish hc calls (by omega) (.of_eq hb) (.refl i u) (fun _ => by omega) h

/-- A read of register 0 followed by its write: RESET and the configuration setters. -/
theorem readModifyWrite_ending {i : Instr} {s t : State} {f : Word → Word} (hc : s.Clear) (hn : callCount i = 3)
    (h : withRead .configuration s (fun v s1 => finishWrite .configuration (f v) s1) = .next t) : Ending i s t := by
  obtain ⟨u, evs, calls, hb, hl, ⟨e, h⟩ | ⟨v, h, hl2⟩⟩ := withRead_cases h
  · exact .ofError hc calls (by omega) (.of_eq hb) h
  · obtain ⟨w, ev, calls', hw, h⟩ := finishWrite_cases h
    have bank : BankStep i s w := by
      intro b hsb
      obtain ⟨b', h1, h2⟩ := memWrite_bank .configuration (f v) u b (hb.trans hsb)
      refine ⟨b', hw ▸ h1, fun _ => ?_, fun h0 => by omega, fun h0 => by omega⟩
      rcases h2 with rfl | rfl <;> rfl
    have hlen : (evs ++ [ev]).length = callCount i := by simp; omega
    rcases h with h | ⟨e, h⟩
    · exact .ofFinish hc (calls.trans calls') (by omega) bank (.refl i w) (fun _ => hlen) h
    · exact .ofError hc (calls.trans calls') (by omega) bank h

theorem setterOp_ending {i : Instr} {s t : State} {f : BitField} {code : Option (BitVec f.width)} (hc : s.Clear)
    (hn : callCount i = 3) (hw : code = none → i.wellFormed = false) (h : setterOp f code s = .next t) :
    Ending i s t := by
  cases code with
  | none => exact .ofFault hc (hw rfl) h
  | some c => exact readModifyWrite_ending (f := fun v => setField f v c) hc hn h

theorem flagOp_ending {i : Instr} {s t : State} {f : Word → Bool} (hc : s.Clear) (hn : callCount i = 2)
    (h : flagOp f s = .next t) : Ending i s t := by
  obtain ⟨evs, calls, hl, -, hall⟩ := memRead_calls .busVoltage s
  have hb := memRead_bank .busVoltage s
  unfold flagOp at h
  split at h <;> rename_i hm <;> rw [hm] at calls hb <;>
    exact .ofFinish hc calls (by omega) (.of_eq hb) (.refl _ _) (fun ha => by rw [hall ha, hn]) h

theorem finishF64_ending {i : Instr} {s u t : State} {evs : List Event} {x : Except Info F64} (hc : s.Clear)
    (calls : Calls s u evs) (hb : u.bank = s.bank) (hn : evs.length = callCount i) (h : finishF64 x u = .next t) :
    Ending i s t := by
  cases x with
  | ok y => exact .ofFinish hc calls (by omega) (.of_eq hb) (.refl i u) (fun _ => hn) h
  | error j => exact .ofError hc calls (by omega) (.of_eq hb) h

theorem scaledOp_ending {i : Instr} {s t : State} {r : RegId} {d : Option Num} {w : Which} (hc : s.Clear)
    (hn : callCount i = 2) (h : scaledOp r d w s = .next t) : Ending i s t := by
  obtain ⟨u, evs, calls, hb, hl, ⟨e, h⟩ | ⟨v, h, hl2⟩⟩ := withRead_cases h
  · exact .ofError hc calls (by omega) (.of_eq hb) h
  · cases d with
    | none => cases h
    | some n => exact finishF64_ending hc calls hb (by omega) h

theorem getDivisorOp_ending {i : Instr} {s t : State} {d : Option Num} (hc : s.Clear) (hn : callCount i = 0)
    (h : getDivisorOp d s = .next t) : Ending i s t := by
  cases d with
  | none => cases h
  | some n => exact .ofFinish hc (.refl s) (by simp) (.of_eq rfl) (.refl i s) (fun _ => by simp [hn]) h

/-! ## The operand checks agree with `Instr.wellFormed` -/

theorem operandNum_none_iff (a : Operand) : operandNum a = none ↔ a.isNum = false := by
  cases a <;> simp [operandNum, Operand.isNum]

theorem operandNum_valid {a : Operand} {d : Num} (h : operandNum a = some d) : numValid d = true := by
  cases a <;> simp [operandNum] at h
  · subst h; rfl
  · obtain ⟨h1, rfl⟩ := h; exact h1

theorem encBrng_none_iff (a : Operand) : encBrng a = none ↔ (Instr.setBrng a).wellFormed = false := by
  simp only [Instr.wellFormed]
  constructor
  · intro h
    unfold encBrng at h
    split at h <;> simp_all
    cases a <;> simp_all [Operand.isOneOf]
  · intro h
    unfold encBrng
    split <;> simp_all [Operand.isOneOf]

theorem encPg_none_iff (a : Operand) : encPg a = none ↔ (Instr.setPga a).wellFormed = false := by
  simp only [Instr.wellFormed]
  constructor
  · intro h
    unfold encPg at h
    split at h <;> simp_all
    cases a <;> simp_all [Operand.isOneOf]
  · intro h
    unfold encPg
    split <;> simp_all [Operand.isOneOf]

theorem encAdc_none_iff (a b : Operand) : encAdc a b = none ↔ Operand.isAdcPair a b = false := by
  constructor
  · intro h
    unfold encAdc at h
    split at h <;> simp_all [Operand.isAdcPair, adcPairs]
    cases a <;> cases b <;> simp_all
  · intro h
    unfold encAdc
    split <;> simp_all [Operand.isAdcPair, adcPairs]

theorem encMode_none_iff (a : Operand) : encMode a = none ↔ a.isModeName = false := by
  cases a <;> simp [encMode, Operand.isModeName, modeNames]
  repeat' split
  all_goals simp_all

/-! ## Every operation -/

theorem setDivisor_ctx {i : Instr} (s : State) (hs : s.constructed = true) (d : Num) (hd : numValid d = true)
    (hc : changesContext i = true) :
    ((∀ a, i ≠ .setPdiv a) → ContextStep i s { s with cdiv := some d }) ∧
    ((∀ a, i ≠ .setCdiv a) → ContextStep i s { s with pdiv := some d }) := by
  refine ⟨fun hi => ⟨rfl, by simp [hc], fun h => ?_, fun _ _ => rfl, fun a ha => absurd ha (hi a)⟩,
    fun hi => ⟨rfl, by simp [hc], fun h => ?_, fun a ha => absurd ha (hi a), fun _ _ => rfl⟩⟩
  · exact ⟨h.handle, by simp [hs], h.pdiv, by simp [hd], h.pdivValid, h.cause⟩
  · exact ⟨h.handle, h.cdiv, by simp [hs], h.cdivValid, by simp [hd], h.cause⟩

theorem constructChecks_cases (a b c : Operand) :
    (constructChecks a b c = .invalid → (Instr.construct a b c).wellFormed = false) ∧
    (∀ h d p, constructChecks a b c = .context h d p → numValid d = true ∧ numValid p = true) := by
  have hnum : ∀ x : Operand, operandNum x = none → x ≠ .none → x.isNumOrNone = false := by
    intro x h hx
    simp [Operand.isNumOrNone, (operandNum_none_iff x).1 h, hx]
  constructor
  · intro h
    unfold constructChecks at h
    simp only [Instr.wellFormed]
    split at h
    · cases h
    · split at h
      · cases h
      · rename_i hb
        split at h
        · rename_i hb'; simp [hnum b hb' hb]
        · split at h
          · cases h
          · rename_i hc
            split at h
            · rename_i hc'; simp [hnum c hc' hc]
            · cases h
    · cases a <;> simp_all [Operand.isHandleOrNone]
  · intro h d p hh
    unfold constructChecks at hh
    split at hh
    · cases hh
    · split at hh
      · cases hh
      · split at hh
        · cases hh
        · rename_i hd
          split at hh
          · cases hh
          · split at hh
            · cases hh
            · rename_i hp
              cases hh
              exact ⟨operandNum_valid hd, operandNum_valid hp⟩
    · cases hh

theorem execSetCal_ending {a : Operand} {s t : State} (h : execSetCal a s = .next t) : Ending (.setCal a) s t := by
  refine accept_ending h fun hc _ h => ?_
  cases a with
  | int v =>
    simp only at h
    split at h
    · exact .ofError hc (.refl s) (by simp) (.of_eq rfl) h
    · obtain ⟨w, ev, calls, hw, h⟩ := finishWrite_cases h
      have bank : BankStep (.setCal (.int v)) s w := by
        intro b hsb
        obtain ⟨b', h1, h2⟩ := memWrite_bank .calibration (BitVec.ofInt 16 v) s b hsb
        refine ⟨b', hw ▸ h1, fun h0 => by simp [callCount] at h0, fun _ => ?_, fun _ h0 => absurd rfl h0⟩
        rcases h2 with rfl | rfl <;> rfl
      rcases h with h | ⟨e, h⟩
      · exact .ofFinish hc calls (by simp [callCount]) bank (.refl _ w) (fun _ => rfl) h
      · exact .ofError hc calls (by simp [callCount]) bank h
  | none => exact .ofFault hc rfl h
  | f64 x => exact .ofFault hc rfl h
  | sym n => exact .ofFault hc rfl h
  | handle n => exact .ofFault hc rfl h

theorem execConstruct_ending {a b c : Operand} {s t : State} (h : execConstruct a b c s = .next t) :
    Ending (.construct a b c) s t := by
  refine acceptAlways_ending h fun hc h => ?_
  split at h
  · exact .ofError hc (.refl s) (by simp) (.of_eq rfl) h
  · obtain ⟨hinv, hctx⟩ := constructChecks_cases a b c
    split at h
    · exact .ofError hc (.refl s) (by simp) (.of_eq rfl) h
    · rename_i hcase
      exact .ofFault hc (hinv hcase) h
    · rename_i hd d p hcase
      obtain ⟨h1, h2⟩ := hctx _ _ _ hcase
      refine .ofFinish hc (.refl s) (by simp) (.of_eq rfl) ⟨rfl, by simp [changesContext], fun hco => ?_, by simp, by simp⟩
        (fun _ => rfl) h
      exact ⟨rfl, rfl, rfl, by simp [h1], by simp [h2], hco.cause⟩

theorem execRelease_ending {s t : State} (h : execRelease s = .next t) : Ending .release s t := by
  refine acceptAlways_ending h fun hc h => ?_
  split at h
  · refine .ofFinish hc (.refl s) (by simp) (.of_eq rfl) ⟨rfl, by simp [changesContext], fun hco => ?_, by simp, by simp⟩
      (fun _ => rfl) h
    exact ⟨rfl, rfl, rfl, rfl, rfl, hco.cause⟩
  · exact .ofError hc (.refl s) (by simp) (.of_eq rfl) h

theorem setDivisor_ending {i : Instr} {a : Operand} {s t : State} {set : Num → State} (hc : s.Clear)
    (hn : callCount i = 0) (hw : a.isNum = false → i.wellFormed = false)
    (hset : ∀ d, numValid d = true → ContextStep i s (set d))
    (h : (match operandNum a with | some d => finish .unit (set d) | none => programmingError s) = .next t) :
    Ending i s t := by
  split at h
  · rename_i d hd
    exact .ofFinish hc (.refl s) (by simp) (.of_eq rfl) (hset d (operandNum_valid hd)) (fun _ => by simp [hn]) h
  · rename_i hd
    exact .ofFault hc (hw ((operandNum_none_iff a).1 hd)) h

/-- Every operation that answers a next state ends in one of the three ways. -/
theorem exec_ending {i : Instr} {s t : State} (h : exec i s = .next t) : Ending i s t := by
  cases i with
  | reset =>
    simp only [exec, execReset] at h
    exact accept_ending h fun hc _ h => readModifyWrite_ending (f := setResetBit) hc rfl h
  | getBrng =>
    simp only [exec, execGetBrng] at h
    exact accept_ending h fun hc _ h => readFinish_ending hc rfl h
  | getPga =>
    simp only [exec, execGetPga] at h
    exact accept_ending h fun hc _ h => readFinish_ending hc rfl h
  | getBadc =>
    simp only [exec, execGetBadc] at h
    exact accept_ending h fun hc _ h => readFinish_ending hc rfl h
  | getSadc =>
    simp only [exec, execGetSadc] at h
    exact accept_ending h fun hc _ h => readFinish_ending hc rfl h
  | getMode =>
    simp only [exec, execGetMode] at h
    exact accept_ending h fun hc _ h => readFinish_ending hc rfl h
  | getCal =>
    simp only [exec, execGetCal] at h
    exact accept_ending h fun hc _ h => readFinish_ending hc rfl h
  | busVoltage =>
    simp only [exec, execBusVoltage] at h
    exact accept_ending h fun hc _ h => readFinish_ending hc rfl h
  | setBrng a =>
    simp only [exec, execSetBrng] at h
    exact accept_ending h fun hc _ h => setterOp_ending hc rfl (encBrng_none_iff a).1 h
  | setPga a =>
    simp only [exec, execSetPga] at h
    exact accept_ending h fun hc _ h => setterOp_ending hc rfl (encPg_none_iff a).1 h
  | setBadc a b =>
    simp only [exec, execSetBadc] at h
    exact accept_ending h fun hc _ h => setterOp_ending hc rfl (encAdc_none_iff a b).1 h
  | setSadc a b =>
    simp only [exec, execSetSadc] at h
    exact accept_ending h fun hc _ h => setterOp_ending hc rfl (encAdc_none_iff a b).1 h
  | setMode a =>
    simp only [exec, execSetMode] at h
    exact accept_ending h fun hc _ h => setterOp_ending hc rfl (encMode_none_iff a).1 h
  | setCal a => exact execSetCal_ending h
  | getCdiv =>
    simp only [exec, execGetCdiv] at h
    exact accept_ending h fun hc _ h => getDivisorOp_ending hc rfl h
  | getPdiv =>
    simp only [exec, execGetPdiv] at h
    exact accept_ending h fun hc _ h => getDivisorOp_ending hc rfl h
  | setCdiv a =>
    simp only [exec, execSetCdiv] at h
    exact accept_ending h fun hc hs h =>
      setDivisor_ending hc rfl id (fun d hd => (setDivisor_ctx s hs d hd rfl).1 (by simp)) h
  | setPdiv a =>
    simp only [exec, execSetPdiv] at h
    exact accept_ending h fun hc hs h =>
      setDivisor_ending hc rfl id (fun d hd => (setDivisor_ctx s hs d hd rfl).2 (by simp)) h
  | shuntVoltage =>
    simp only [exec, execShuntVoltage] at h
    refine accept_ending h fun hc _ h => ?_
    obtain ⟨u, evs, calls, hb, hl, ⟨e, h⟩ | ⟨v, h, hl2⟩⟩ := withRead_cases h
    · exact .ofError hc calls (by simp only [callCount]; omega) (.of_eq hb) h
    · obtain ⟨w, evs', calls', hb', hl', ⟨e, h⟩ | ⟨v', h, hl2'⟩⟩ := withRead_cases h
      · exact .ofError hc (calls.trans calls') (by simp [callCount]; omega) (.of_eq (hb'.trans hb)) h
      · exact finishF64_ending hc (calls.trans calls') (hb'.trans hb) (by simp [callCount]; omega) h
  | convReady =>
    simp only [exec, execConvReady] at h
    exact accept_ending h fun hc _ h => flagOp_ending hc rfl h
  | mathOvf =>
    simp only [exec, execMathOvf] at h
    exact accept_ending h fun hc _ h => flagOp_ending hc rfl h
  | current =>
    simp only [exec, execCurrent] at h
    exact accept_ending h fun hc _ h => scaledOp_ending hc rfl h
  | power =>
    simp only [exec, execPower] at h
    exact accept_ending h fun hc _ h => scaledOp_ending hc rfl h
  | construct a b c => exact execConstruct_ending h
  | release => exact execRelease_ending h

end Sys2Proof.Machine
end

