-- ==== Sys2Proof/Laws/Accept.lean ====
section
/-! SUPPORT. The operations under the checks of spec/60_exceptions.md R147, rewritten: what `accept` is in a ready, an
unconstructed and a marked state, and what a read and a write step become once their answer is known. -/

namespace Sys2Proof.Machine

theorem accept_of_ready {s : State} (h : s.Ready) (op : State → Result) : accept s op = op s := by
  simp [accept, acceptAlways, h.1.1, h.1.2, h.2]

theorem acceptAlways_of_clear {s : State} (h : s.Clear) (op : State → Result) : acceptAlways s op = op s := by
  simp [acceptAlways, h.1, h.2]

theorem accept_of_not_constructed {s : State} (h : s.Clear) (hc : s.constructed = false) (op : State → Result) :
    accept s op = raiseError .notConstructed s := by
  simp [accept, acceptAlways, h.1, h.2, hc]

theorem acceptAlways_of_marked {s : State} (h : ¬ s.Clear) (op : State → Result) : acceptAlways s op = refuse s := by
  unfold acceptAlways
  cases hf : s.faulted <;> cases hr : s.refused <;> simp_all [State.Clear]

/-- Every operation refuses in a marked state (R146). -/
theorem exec_of_marked {s : State} (h : ¬ s.Clear) (i : Instr) : exec i s = refuse s := by
  cases i <;>
    simp only [exec, accept, acceptAlways_of_marked h,
      execReset, execGetBrng, execSetBrng, execGetPga, execSetPga, execGetBadc, execSetBadc, execGetSadc,
      execSetSadc, execGetMode, execSetMode, execGetCal, execSetCal, execGetCdiv, execSetCdiv,
      execGetPdiv, execSetPdiv, execShuntVoltage, execBusVoltage, execConvReady, execMathOvf, execCurrent,
      execPower, execConstruct, execRelease]

/-- Without a device context, every operation but CONSTRUCT and RELEASE ends with `not_constructed` (R147 step 3). -/
theorem exec_of_not_constructed {s : State} (h : s.Clear) (hc : s.constructed = false) (i : Instr)
    (hi : ∀ a b c, i ≠ .construct a b c) (hr : i ≠ .release) : exec i s = raiseError .notConstructed s := by
  cases i
  case construct a b c => exact absurd rfl (hi a b c)
  case release => exact absurd rfl hr
  all_goals
    simp only [exec, accept_of_not_constructed h hc,
      execReset, execGetBrng, execSetBrng, execGetPga, execSetPga, execGetBadc, execSetBadc, execGetSadc,
      execSetSadc, execGetMode, execSetMode, execGetCal, execSetCal, execGetCdiv, execSetCdiv,
      execGetPdiv, execSetPdiv, execShuntVoltage, execBusVoltage, execConvReady, execMathOvf, execCurrent,
      execPower]

theorem withRead_ok {r : RegId} {s s1 : State} {v : Word} (h : memRead r s = (.ok v, s1)) (k : Word → State → Result) :
    withRead r s k = k v s1 := by
  simp [withRead, h]

theorem withRead_error {r : RegId} {s s1 : State} {e : TransportReason} (h : memRead r s = (.error e, s1))
    (k : Word → State → Result) : withRead r s k = raiseError (.transport e) s1 := by
  simp [withRead, h]

theorem finishWrite_ok {r : WritableReg} {v : Word} {s s1 : State} (h : memWrite r v s = (.ok, s1)) :
    finishWrite r v s = finish .unit s1 := by
  simp [finishWrite, h]

theorem finishWrite_error {r : WritableReg} {v : Word} {s s1 : State} {e : TransportReason}
    (h : memWrite r v s = (.error e, s1)) : finishWrite r v s = raiseError (.transport e) s1 := by
  simp [finishWrite, h]

end Sys2Proof.Machine
end

