-- ==== Sys2Proof/Laws/Float.lean ====
section
/-! SUPPORT. The rounding steps of Machine/Float.lean over the rationals: the logarithm brackets its argument, the integer
rounding is nearest with ties to even, and a packed magnitude has the value its significand and exponent say. -/

namespace Sys2Proof

/-! ## Rounding to an integer -/

/-- The rounded quotient is within one half, and even on a tie. -/
theorem roundHalfEven_spec (n d : Nat) (hd : 0 < d) :
    |((roundHalfEven n d : Nat) : ℚ) - n / d| ≤ 1 / 2 ∧
    (|((roundHalfEven n d : Nat) : ℚ) - n / d| = 1 / 2 → roundHalfEven n d % 2 = 0) := by
  have hd' : (0 : ℚ) < d := by exact_mod_cast hd
  have hdiv : (n : ℚ) / d = (n / d : Nat) + (n % d : Nat) / (d : ℚ) := by
    have h : (n : ℚ) = (n / d : Nat) * d + (n % d : Nat) := by exact_mod_cast (Nat.div_add_mod' n d).symm
    rw [div_eq_iff hd'.ne', add_mul, div_mul_cancel₀ _ hd'.ne']
    exact h
  have hr : n % d < d := Nat.mod_lt n hd
  generalize hq : n / d = a at *
  generalize hb : n % d = b at *
  have hr' : (b : ℚ) < d := by exact_mod_cast hr
  have hb0 : (0 : ℚ) ≤ b := by positivity
  unfold roundHalfEven
  rw [hq, hb, hdiv]
  split
  · rename_i h
    have h2 : (d : ℚ) ≤ 2 * b := by
      rcases h with h | h
      · exact_mod_cast h.le
      · exact_mod_cast h.1.le
    have e : (((a + 1 : Nat) : ℚ) - (a + b / d)) = 1 - b / d := by push_cast; ring
    have h3 : 1 / 2 ≤ (b : ℚ) / d := by rw [div_le_div_iff₀ (by norm_num) hd']; linarith
    have h4 : (b : ℚ) / d < 1 := by rw [div_lt_one hd']; exact hr'
    rw [e, abs_of_nonneg (by linarith)]
    refine ⟨by linarith, fun h5 => ?_⟩
    have h6 : (b : ℚ) / d = 1 / 2 := by linarith
    rw [div_eq_div_iff hd'.ne' (by norm_num)] at h6
    have h7 : b * 2 = d := by exact_mod_cast (by linarith : (b : ℚ) * 2 = d)
    omega
  · rename_i h
    have h2 : 2 * (b : ℚ) ≤ d := by
      have : 2 * b ≤ d := by omega
      exact_mod_cast this
    have e : ((a : ℚ) - (a + b / d)) = -(b / d) := by ring
    have h3 : (b : ℚ) / d ≤ 1 / 2 := by rw [div_le_div_iff₀ hd' (by norm_num)]; linarith
    rw [e, abs_neg, abs_of_nonneg (by positivity)]
    refine ⟨h3, fun h5 => ?_⟩
    rw [div_eq_div_iff hd'.ne' (by norm_num)] at h5
    have h7 : b * 2 = d := by exact_mod_cast (by linarith : (b : ℚ) * 2 = d)
    omega

/-! ## The logarithm -/

/-- Scaling by a signed power of two with two natural exponents. -/
theorem scaled_quotient (num den : Nat) (e : Int) :
    ((num * 2 ^ (-e).toNat : Nat) : ℚ) / ((den * 2 ^ e.toNat : Nat) : ℚ) = (num : ℚ) / den * (2 : ℚ) ^ (-e) := by
  rcases le_total 0 e with h | h
  · obtain ⟨k, rfl⟩ := Int.eq_ofNat_of_zero_le h
    have : (-(k : Int)).toNat = 0 := by omega
    rw [this]
    simp only [pow_zero, mul_one, Int.toNat_natCast, zpow_neg, zpow_natCast]
    push_cast
    rw [div_mul_eq_div_div, div_eq_mul_inv _ ((2 : ℚ) ^ k)]
  · obtain ⟨k, hk⟩ := Int.eq_ofNat_of_zero_le (neg_nonneg.2 h)
    have h0 : e.toNat = 0 := by omega
    rw [h0, hk]
    simp only [pow_zero, mul_one, Int.toNat_natCast, zpow_natCast]
    push_cast
    rw [mul_div_right_comm]

/-- `2 ^ floorLog2 ≤ num / den < 2 ^ (floorLog2 + 1)`. -/
theorem floorLog2_spec (num den : Nat) (hn : 0 < num) (hd : 0 < den) :
    (2 : ℚ) ^ floorLog2 num den ≤ (num : ℚ) / den ∧ (num : ℚ) / den < (2 : ℚ) ^ (floorLog2 num den + 1) := by
  have hd' : (0 : ℚ) < den := by exact_mod_cast hd
  have n1 : ((2 ^ Nat.log2 num : Nat) : ℚ) ≤ num := by exact_mod_cast Nat.log2_self_le hn.ne'
  have n2 : (num : ℚ) < ((2 ^ (Nat.log2 num + 1) : Nat) : ℚ) := by exact_mod_cast Nat.lt_log2_self
  have d1 : ((2 ^ Nat.log2 den : Nat) : ℚ) ≤ den := by exact_mod_cast Nat.log2_self_le hd.ne'
  have d2 : (den : ℚ) < ((2 ^ (Nat.log2 den + 1) : Nat) : ℚ) := by exact_mod_cast Nat.lt_log2_self
  push_cast at n1 n2 d1 d2
  have lo : (2 : ℚ) ^ ((Nat.log2 num : Int) - (Nat.log2 den : Int) - 1) ≤ (num : ℚ) / den := by
    rw [le_div_iff₀ hd']
    calc (2 : ℚ) ^ ((Nat.log2 num : Int) - (Nat.log2 den : Int) - 1) * den
        ≤ (2 : ℚ) ^ ((Nat.log2 num : Int) - (Nat.log2 den : Int) - 1) * 2 ^ (Nat.log2 den + 1) := by gcongr
      _ = (2 : ℚ) ^ Nat.log2 num := by
        rw [← zpow_natCast, ← zpow_natCast, ← zpow_add₀ (by norm_num)]; congr 1; push_cast; ring
      _ ≤ num := n1
  have hi : (num : ℚ) / den < (2 : ℚ) ^ ((Nat.log2 num : Int) - (Nat.log2 den : Int) + 1) := by
    rw [div_lt_iff₀ hd']
    calc (num : ℚ) < (2 : ℚ) ^ (Nat.log2 num + 1) := n2
      _ = (2 : ℚ) ^ ((Nat.log2 num : Int) - (Nat.log2 den : Int) + 1) * 2 ^ Nat.log2 den := by
        rw [← zpow_natCast, ← zpow_natCast, ← zpow_add₀ (by norm_num)]; congr 1; push_cast; ring
      _ ≤ _ := by gcongr
  unfold floorLog2
  simp only
  generalize ((Nat.log2 num : Int) - (Nat.log2 den : Int)) = e at *
  have key : den * 2 ^ e.toNat ≤ num * 2 ^ (-e).toNat ↔ (2 : ℚ) ^ e ≤ (num : ℚ) / den := by
    have hpos : (0 : ℚ) < ((den * 2 ^ e.toNat : Nat) : ℚ) := by exact_mod_cast Nat.mul_pos hd (by positivity)
    rw [← Nat.cast_le (α := ℚ), ← one_le_div hpos, scaled_quotient, zpow_neg, ← div_eq_mul_inv,
      one_le_div (by positivity)]
  split
  · rename_i h
    exact ⟨key.1 h, hi⟩
  · rename_i h
    refine ⟨lo, ?_⟩
    rw [key] at h
    simpa using h

/-! ## Packed values -/

theorem ofSignMagnitude_toNat (neg : Bool) (mag : Nat) (h : mag < 2 ^ 63) :
    (F64.ofSignMagnitude neg mag).toNat = (if neg then 2 ^ 63 else 0) + mag := by
  simp only [F64.ofSignMagnitude, BitVec.toNat_ofNat]
  apply Nat.mod_eq_of_lt
  split <;> omega

theorem ofSignMagnitude_isNeg (neg : Bool) (mag : Nat) (h : mag < 2 ^ 63) :
    (F64.ofSignMagnitude neg mag).isNeg = neg := by
  have hn := ofSignMagnitude_toNat neg mag h
  simp only [F64.isNeg, BitVec.getLsbD, Nat.testBit_eq_decide_div_mod_eq, hn]
  cases neg <;> simp <;> omega

/-- The fields of a packed value do not depend on the sign. -/
theorem ofSignMagnitude_fields (neg : Bool) (mag : Nat) (h : mag < 2 ^ 63) :
    (F64.ofSignMagnitude neg mag).exponentField = mag / 2 ^ 52 ∧
    (F64.ofSignMagnitude neg mag).fraction = mag % 2 ^ 52 := by
  simp only [F64.exponentField, F64.fraction, ofSignMagnitude_toNat neg mag h]
  cases neg <;> simp <;> omega

theorem ofSignMagnitude_isFinite (neg : Bool) (mag : Nat) (h : mag ≤ 2047 * 2 ^ 52) :
    (F64.ofSignMagnitude neg mag).isFinite = true ↔ mag < 2047 * 2 ^ 52 := by
  simp only [F64.isFinite, (ofSignMagnitude_fields neg mag (by omega)).1, bne_iff_ne]
  omega

/-- The value of a packed significand: `m × 2 ^ (k - 1074)`, where m may have rounded up to 2^53 and is normal unless k is
0. -/
theorem ofSignMagnitude_absValue (neg : Bool) (k m : Nat) (hm : m ≤ 2 ^ 53) (hk : k = 0 ∨ 2 ^ 52 ≤ m)
    (h : k * 2 ^ 52 + m < 2047 * 2 ^ 52) :
    (F64.ofSignMagnitude neg (k * 2 ^ 52 + m)).absValue = m * (2 : ℚ) ^ ((k : Int) - 1074) := by
  obtain ⟨he, hf⟩ := ofSignMagnitude_fields neg (k * 2 ^ 52 + m) (by omega)
  simp only [F64.absValue, F64.significand, F64.ulpExponent, he, hf]
  rcases Nat.lt_or_ge m (2 ^ 52) with h1 | h1
  · have hk0 : k = 0 := by omega
    subst hk0
    have e0 : (0 * 2 ^ 52 + m) / 2 ^ 52 = 0 := by omega
    have e1 : (0 * 2 ^ 52 + m) % 2 ^ 52 = m := by omega
    rw [e0, if_pos rfl, if_pos rfl, e1]
    norm_num
  · rcases Nat.lt_or_ge m (2 ^ 53) with h2 | h2
    · have e0 : (k * 2 ^ 52 + m) / 2 ^ 52 = k + 1 := by omega
      have e1 : 2 ^ 52 + (k * 2 ^ 52 + m) % 2 ^ 52 = m := by omega
      rw [e0, if_neg (by omega), if_neg (by omega), e1]
      congr 2
      push_cast
      ring
    · have hm' : m = 2 ^ 53 := by omega
      subst hm'
      have e0 : (k * 2 ^ 52 + 2 ^ 53) / 2 ^ 52 = k + 2 := by omega
      have e1 : 2 ^ 52 + (k * 2 ^ 52 + 2 ^ 53) % 2 ^ 52 = 2 ^ 52 := by omega
      rw [e0, if_neg (by omega), if_neg (by omega), e1]
      have : (((k + 2 : Nat) : Int) - 1075) = ((k : Int) - 1074) + 1 := by push_cast; ring
      rw [this, zpow_add₀ (by norm_num)]
      push_cast
      ring

/-! ## One rounding -/

/-- The bound as R130 writes it. -/
theorem overflowBound_eq : overflowBound = 2 ^ 1024 - 2 ^ 970 := by decide +kernel

/-- The bound counted in steps of the last finite binade, half a step above its top. -/
theorem overflowBound_cast : (overflowBound : ℚ) = (18014398509481983 / 2) * (2 : ℚ) ^ (971 : Int) := by
  have h : overflowBound = 18014398509481983 * 2 ^ 970 := by decide +kernel
  have e : (2 : ℚ) ^ (971 : Int) = 2 ^ 970 * 2 := by
    rw [show (971 : Int) = ((970 + 1 : Nat) : Int) from rfl, zpow_natCast, pow_succ]
  rw [h, e]
  generalize hA : 2 ^ 970 = A
  have hA' : (2 : ℚ) ^ 970 = (A : ℚ) := by rw [← hA, Nat.cast_pow]; rfl
  rw [hA']
  push_cast
  ring

/-- What `fl64Magnitude` packs, and all it knows about it. -/
theorem fl64Magnitude_spec (num den : Nat) (hn : 0 < num) (hd : 0 < den) :
    ∃ (k m : Nat) (q e : Int), q = (k : Int) - 1074 ∧ q = max (e - 52) (-1074) ∧
      fl64Magnitude num den = min (k * 2 ^ 52 + m) (2047 * 2 ^ 52) ∧
      (2 : ℚ) ^ e ≤ (num : ℚ) / den ∧ (num : ℚ) / den < (2 : ℚ) ^ (e + 1) ∧
      m ≤ 2 ^ 53 ∧ (k = 0 ∨ 2 ^ 52 ≤ m) ∧
      |(m : ℚ) - num / den * (2 : ℚ) ^ (-q)| ≤ 1 / 2 ∧
      (|(m : ℚ) - num / den * (2 : ℚ) ^ (-q)| = 1 / 2 → m % 2 = 0) := by
  obtain ⟨l1, l2⟩ := floorLog2_spec num den hn hd
  set e := floorLog2 num den with he
  set q := roundExponent num den with hq
  have hqe : q = max (e - 52) (-1074) := rfl
  obtain ⟨k, hk⟩ : ∃ k : Nat, q = (k : Int) - 1074 := ⟨(q + 1074).toNat, by omega⟩
  have hspec := roundHalfEven_spec (num * 2 ^ (-q).toNat) (den * 2 ^ q.toNat) (Nat.mul_pos hd (by positivity))
  rw [scaled_quotient] at hspec
  obtain ⟨r1, r2⟩ := hspec
  set m := roundHalfEven (num * 2 ^ (-q).toNat) (den * 2 ^ q.toNat) with hm
  have hx0 : (num : ℚ) / den * (2 : ℚ) ^ (-q) < 2 ^ 53 := by
    calc (num : ℚ) / den * (2 : ℚ) ^ (-q) < (2 : ℚ) ^ (e + 1) * (2 : ℚ) ^ (-q) := by gcongr
      _ = (2 : ℚ) ^ (e + 1 - q) := by rw [← zpow_add₀ (by norm_num)]; rfl
      _ ≤ (2 : ℚ) ^ (53 : Int) := zpow_le_zpow_right₀ (by norm_num) (by omega)
      _ = 2 ^ 53 := by norm_cast
  refine ⟨k, m, q, e, hk, hqe, ?_, l1, l2, ?_, ?_, r1, r2⟩
  · unfold fl64Magnitude
    rw [if_neg hn.ne']
    have : (q + 1074).toNat = k := by omega
    show min ((q + 1074).toNat * 2 ^ 52 + m) _ = _
    rw [this]
  · have h1 : (m : ℚ) < ((2 ^ 53 + 1 : Nat) : ℚ) := by
      have := (abs_le.1 r1).2
      push_cast
      linarith
    have := Nat.cast_lt.1 h1
    omega
  · rcases Nat.eq_zero_or_pos k with h0 | h0
    · exact .inl h0
    · right
      have hq2 : q = e - 52 := by omega
      have hx1 : (2 : ℚ) ^ 52 ≤ (num : ℚ) / den * (2 : ℚ) ^ (-q) := by
        calc (2 : ℚ) ^ 52 = (2 : ℚ) ^ e * (2 : ℚ) ^ (-q) := by
              rw [← zpow_add₀ (by norm_num), hq2]
              rw [show e + -(e - 52) = ((52 : Nat) : Int) by push_cast; ring, zpow_natCast]
          _ ≤ _ := by gcongr
      have h1 : ((2 ^ 52 - 1 : Nat) : ℚ) < (m : ℚ) := by
        have := (abs_le.1 r1).1
        push_cast
        linarith
      have := Nat.cast_lt.1 h1
      omega

end Sys2Proof
end

