-- ==== Sys2Proof/Laws/PerInstr.lean ====
section
/-! SUPPORT. One lemma per instruction, about the instruction as syntax. -/

namespace Sys2Proof.Laws.OpselRow

/-- An instruction's opsel is one of the rows of spec/30_encoding.md R77, and it selects an instruction of that row
whatever stands in the operand slots (R75). -/
def Statement (i : Instr) : Prop :=
  (Machine.mnemonicTable.any fun row => row.2 == i.opsel) = true ∧
  ∀ a b c, ∃ j, decode ⟨i.opsel, a, b, c⟩ = .ok j ∧ j.opsel = i.opsel

theorem reset : Statement .reset := ⟨rfl, fun _ _ _ => ⟨_, rfl, rfl⟩⟩

theorem getBrng : Statement .getBrng := ⟨rfl, fun _ _ _ => ⟨_, rfl, rfl⟩⟩

theorem setBrng (a : Operand) : Statement (.setBrng a) := ⟨rfl, fun _ _ _ => ⟨_, rfl, rfl⟩⟩

theorem getPga : Statement .getPga := ⟨rfl, fun _ _ _ => ⟨_, rfl, rfl⟩⟩

theorem setPga (a : Operand) : Statement (.setPga a) := ⟨rfl, fun _ _ _ => ⟨_, rfl, rfl⟩⟩

theorem getBadc : Statement .getBadc := ⟨rfl, fun _ _ _ => ⟨_, rfl, rfl⟩⟩

theorem setBadc (a b : Operand) : Statement (.setBadc a b) := ⟨rfl, fun _ _ _ => ⟨_, rfl, rfl⟩⟩

theorem getSadc : Statement .getSadc := ⟨rfl, fun _ _ _ => ⟨_, rfl, rfl⟩⟩

theorem setSadc (a b : Operand) : Statement (.setSadc a b) := ⟨rfl, fun _ _ _ => ⟨_, rfl, rfl⟩⟩

theorem getMode : Statement .getMode := ⟨rfl, fun _ _ _ => ⟨_, rfl, rfl⟩⟩

theorem setMode (a : Operand) : Statement (.setMode a) := ⟨rfl, fun _ _ _ => ⟨_, rfl, rfl⟩⟩

theorem getCal : Statement .getCal := ⟨rfl, fun _ _ _ => ⟨_, rfl, rfl⟩⟩

theorem setCal (a : Operand) : Statement (.setCal a) := ⟨rfl, fun _ _ _ => ⟨_, rfl, rfl⟩⟩

theorem getCdiv : Statement .getCdiv := ⟨rfl, fun _ _ _ => ⟨_, rfl, rfl⟩⟩

theorem setCdiv (a : Operand) : Statement (.setCdiv a) := ⟨rfl, fun _ _ _ => ⟨_, rfl, rfl⟩⟩

theorem getPdiv : Statement .getPdiv := ⟨rfl, fun _ _ _ => ⟨_, rfl, rfl⟩⟩

theorem setPdiv (a : Operand) : Statement (.setPdiv a) := ⟨rfl, fun _ _ _ => ⟨_, rfl, rfl⟩⟩

theorem shuntVoltage : Statement .shuntVoltage := ⟨rfl, fun _ _ _ => ⟨_, rfl, rfl⟩⟩

theorem busVoltage : Statement .busVoltage := ⟨rfl, fun _ _ _ => ⟨_, rfl, rfl⟩⟩

theorem convReady : Statement .convReady := ⟨rfl, fun _ _ _ => ⟨_, rfl, rfl⟩⟩

theorem mathOvf : Statement .mathOvf := ⟨rfl, fun _ _ _ => ⟨_, rfl, rfl⟩⟩

theorem current : Statement .current := ⟨rfl, fun _ _ _ => ⟨_, rfl, rfl⟩⟩

theorem power : Statement .power := ⟨rfl, fun _ _ _ => ⟨_, rfl, rfl⟩⟩

theorem construct (a b c : Operand) : Statement (.construct a b c) := ⟨rfl, fun _ _ _ => ⟨_, rfl, rfl⟩⟩

theorem release : Statement .release := ⟨rfl, fun _ _ _ => ⟨_, rfl, rfl⟩⟩

end Sys2Proof.Laws.OpselRow
end

