-- ==== Sys2Proof/Laws/Runs.lean ====
section
/-! SUPPORT. One step of a run of `core`, and what one step can be. -/

namespace Sys2Proof.Machine

/-- A run of n + 1 steps whose first step answers a next state is the run of n steps from there. -/
theorem run_succ (M : Host.Core) {s t : M.State} (h : M.step s = .next t) (n : Nat) : M.run (n + 1) s = M.run n t := by
  simp only [Host.Core.run, h]

/-- The same for `core`, in the machine's own names. -/
theorem core_run_succ {s t : State} (h : step s = .next t) (n : Nat) : core.run (n + 1) s = core.run n t :=
  run_succ core h n

/-- A run of n + m steps whose first n end in a state is the run of m steps from there. -/
theorem core_run_add (n m : Nat) : ∀ s t : State, core.run n s = .next t → core.run (n + m) s = core.run m t := by
  induction n with
  | zero =>
    intro s t h
    have hst : s = t := by injection h
    rw [hst, Nat.zero_add]
  | succ n ih =>
    intro s t h
    cases hs : step s with
    | next u =>
      rw [core_run_succ hs] at h
      rw [Nat.succ_add, core_run_succ hs]
      exact ih u t h
    | fault r =>
      simp only [Host.Core.run, show core.step s = _ from hs] at h
      cases h
    | refused r =>
      simp only [Host.Core.run, show core.step s = _ from hs] at h
      cases h

/-- What a step that answers a next state was: waiting, a block reset, a refused command, or an operation. -/
theorem step_next_cases {s t : State} (h : step s = .next t) :
    (s.inbox = [] ∧ t = s) ∨
    (∃ rest, s.inbox = .blockReset :: rest ∧ t = blockReset { s with inbox := rest }) ∨
    (∃ c rest, s.inbox = .command c :: rest ∧
      (t = { s with inbox := rest, refused := true } ∨ ∃ i, decode c = .ok i ∧ exec i { s with inbox := rest } = .next t)) := by
  unfold step at h
  split at h
  · rename_i hi
    cases h
    exact .inl ⟨hi, rfl⟩
  · rename_i m rest hi
    cases m with
    | blockReset =>
      cases h
      exact .inr (.inl ⟨rest, hi, rfl⟩)
    | command c =>
      refine .inr (.inr ⟨c, rest, hi, ?_⟩)
      simp only [hostMove] at h
      split at h
      · rename_i i hd
        exact .inr ⟨i, hd, h⟩
      · cases h
        exact .inl rfl

end Sys2Proof.Machine
end

