-- ==== Sys2Proof/Tests/Slice0.lean ====
section
/-! SUPPORT. Tests: ill-formed operands refused by the well-formedness checks, decoding of words written out from
spec/30_encoding.md R77, one-operation vectors of spec/95_test_vectors.md (each cited), and for every statement with
hypotheses a named witness that meets them. -/

namespace Sys2Proof.Tests

open Sys2Proof Sys2Proof.Machine

/-! ## States and views the tests use -/

def h0 : Handle := ⟨"h0"⟩
def e1 : TransportReason := .external "e1"
def e2 : TransportReason := .external "e2"

/-- A constructed state with the divisors of `CONSTRUCT h0, 2, 4.0` in an environment. -/
def builtIn (env : Env) : State :=
  { State.reset with
    constructed := true, handle := some h0, cdiv := some (.int 2), pdiv := some (.f64 0x4010000000000000#64), env := env }

/-- Constructed under the oracle, its next answers drawn: every write `ok`, and these reads. -/
def reading (reads : List ReadAnswer) : State := builtIn (.oracle [.ok, .ok, .ok] reads)

/-- Constructed under the oracle with one two-byte read answer drawn. -/
def reading2 (h l : Byte) : State := reading [.bytes [h, l]]

/-- Constructed under the oracle; the configuration reads 0x399F with its PG code replaced, then the shunt register. -/
def shuntReading (cfgHigh h l : Byte) : State := reading [.bytes [cfgHigh, 0x9F#8], .bytes [h, l]]

/-- Constructed, with other divisors. -/
def withDivisors (c p : Sys2Proof.Num) (s : State) : State := { s with cdiv := some c, pdiv := some p }

/-- The mock store of program P1. -/
def bankP1 : Bank := ⟨0x399F#16, 0x0FA0#16, 0xFA03#16, 0x1000#16, 0x1234#16, 0x0000#16⟩

/-- A mock store seeded in cell 0. -/
def seeded (w : Word) (failures : List (Nat × TransportReason)) : State :=
  builtIn (.mockStore ⟨⟨w, 0#16, 0#16, 0#16, 0#16, 0#16⟩, .configuration, failures⟩)

/-- A call as the transcripts of spec/95 show it: the written bytes, or the number of bytes asked for. -/
def callOf : Event → List Byte ⊕ Nat
  | .write _ bytes _ => .inl bytes
  | .read _ n _ => .inr n

/-- The next state's response and calls. -/
def seen (r : Result) : Option (Option Response × List (List Byte ⊕ Nat)) :=
  match r with
  | .next t => some (t.rsp, t.hist.map callOf)
  | _ => none

/-- The next state's response. -/
def said (r : Result) : Option Response :=
  match r with
  | .next t => t.rsp
  | _ => none

/-- The next state, or the state before where there is none. -/
def after (r : Result) (s : State) : State :=
  match r with
  | .next t => t
  | _ => s

/-- The value of an `OK`, as the whole response. -/
def ok (v : Value) : Option Response := some (okResponse v)

/-- An `ERR`, as the whole response. -/
def err (i : Info) : Option Response := some (errorResponse i)

/-- The calls of one register read. -/
def readCalls (id : Byte) : List (List Byte ⊕ Nat) := [.inl [id], .inr 2]

/-! ## Well-formedness: an ill-formed term for each check, which the check refuses -/

theorem test_wf_brng : (Instr.setBrng (.int 24)).wellFormed = false ∧ (Instr.setBrng (.int 0)).wellFormed = false ∧
    (Instr.setBrng (.int 32)).wellFormed = true := by decide
theorem test_wf_pga : (Instr.setPga (.int 3)).wellFormed = false ∧ (Instr.setPga (.int 16)).wellFormed = false ∧
    (Instr.setPga (.int 8)).wellFormed = true := by decide
theorem test_wf_badc : (Instr.setBadc (.int 2) (.int 9)).wellFormed = false ∧
    (Instr.setBadc (.int 3) (.int 12)).wellFormed = false ∧ (Instr.setBadc (.int 1) .none).wellFormed = false := by decide
theorem test_wf_sadc : (Instr.setSadc (.int 256) (.int 12)).wellFormed = false ∧
    (Instr.setSadc (.int 1) (.int 11)).wellFormed = true := by decide
theorem test_wf_mode : (Instr.setMode (.sym "sleep")).wellFormed = false ∧
    (Instr.setMode (.int 4)).wellFormed = false ∧ (Instr.setMode (.sym "adc_off")).wellFormed = true := by decide
theorem test_wf_cal : (Instr.setCal (.f64 0x40B0000000000000#64)).wellFormed = false ∧
    (Instr.setCal (.sym "x")).wellFormed = false ∧ (Instr.setCal (.int 65536)).wellFormed = true := by decide
theorem test_wf_cdiv : (Instr.setCdiv (.f64 0x7FF0000000000000#64)).wellFormed = false ∧
    (Instr.setCdiv (.f64 0x7FF8000000000000#64)).wellFormed = false ∧ (Instr.setCdiv (.int 0)).wellFormed = true := by decide
theorem test_wf_pdiv : (Instr.setPdiv (.sym "x")).wellFormed = false ∧
    (Instr.setPdiv (.f64 0x8000000000000000#64)).wellFormed = true := by decide
theorem test_wf_construct : (Instr.construct (.int 7) (.int 1) (.int 1)).wellFormed = false ∧
    (Instr.construct (.handle h0) (.sym "a") (.int 1)).wellFormed = false ∧
    (Instr.construct (.handle h0) (.int 1) (.handle h0)).wellFormed = false ∧
    (Instr.construct .none .none .none).wellFormed = true := by decide

/-! ## Decoding: the opsel bytes of R77, bit by bit -/

/-- The configuration codec's rows, 0001 xxxx. -/
theorem test_decode_configuration :
    decodeTableWord 8 0b00010000 = some .reset ∧ decodeTableWord 8 0b00010001 = some .getBrng ∧
    decodeTableWord 8 0b00010010 = some (.setBrng .none) ∧ decodeTableWord 8 0b00010011 = some .getPga ∧
    decodeTableWord 8 0b00010100 = some (.setPga .none) ∧ decodeTableWord 8 0b00010101 = some .getBadc ∧
    decodeTableWord 8 0b00010110 = some (.setBadc .none .none) ∧ decodeTableWord 8 0b00010111 = some .getSadc ∧
    decodeTableWord 8 0b00011000 = some (.setSadc .none .none) ∧ decodeTableWord 8 0b00011001 = some .getMode ∧
    decodeTableWord 8 0b00011010 = some (.setMode .none) := by decide
/-- The calibration store's rows, 0010 xxxx. -/
theorem test_decode_calibration :
    decodeTableWord 8 0b00100000 = some .getCal ∧ decodeTableWord 8 0b00100001 = some (.setCal .none) ∧
    decodeTableWord 8 0b00100010 = some .getCdiv ∧ decodeTableWord 8 0b00100011 = some (.setCdiv .none) ∧
    decodeTableWord 8 0b00100100 = some .getPdiv ∧ decodeTableWord 8 0b00100101 = some (.setPdiv .none) := by decide
/-- The measurement decoder's rows, 0011 xxxx. -/
theorem test_decode_measurement :
    decodeTableWord 8 0b00110000 = some .shuntVoltage ∧ decodeTableWord 8 0b00110001 = some .busVoltage ∧
    decodeTableWord 8 0b00110010 = some .convReady ∧ decodeTableWord 8 0b00110011 = some .mathOvf ∧
    decodeTableWord 8 0b00110100 = some .current ∧ decodeTableWord 8 0b00110101 = some .power := by decide
/-- The lifecycle rows, 0100 xxxx. -/
theorem test_decode_lifecycle :
    decodeTableWord 8 0b01000000 = some (.construct .none .none .none) ∧
    decodeTableWord 8 0b01000001 = some .release := by decide
/-- The unassigned opsel values of V22. -/
theorem test_decode_unassigned : decodeTableWord 8 0x00 = none ∧ decodeTableWord 8 0x1B = none ∧
    decodeTableWord 8 0x26 = none ∧ decodeTableWord 8 0x36 = none ∧ decodeTableWord 8 0x42 = none ∧
    decodeTableWord 8 0xFF = none := by decide
/-- P1 row 1 and P4 row 2: a command's operand slots reach the instruction in order. -/
theorem test_decode_operands :
    decode ⟨0x40#8, .handle h0, .int 2, .f64 0x4010000000000000#64⟩
      = .ok (.construct (.handle h0) (.int 2) (.f64 0x4010000000000000#64)) ∧
    decode ⟨0x16#8, .int 128, .int 12, .none⟩ = .ok (.setBadc (.int 128) (.int 12)) := ⟨rfl, rfl⟩

/-! ## One step from reset -/

/-- V22 row 1: GET_PGA fetched as the first command after reset. -/
theorem test_first_command_runs :
    seen (step (State.reset.withFetchWord 8 0b00010011)) = some (err .notConstructed, []) := by decide
/-- V22: opsel 0x00 at reset is refused, and no response is written. -/
theorem test_first_command_refused :
    (after (step (State.reset.withFetchWord 8 0)) State.reset).refused = true ∧
    (after (step (State.reset.withFetchWord 8 0)) State.reset).rsp = none := by decide

/-! ## Configuration codec (spec/95_test_vectors.md V1 to V11, W2, W3) -/

/-- V9, first and second rows. -/
theorem test_reset_frame : seen (execReset (reading2 0x39#8 0x9F#8))
    = some (ok .unit, readCalls 0x00#8 ++ [.inl [0x00#8, 0xB9#8, 0x9F#8]]) := by decide
theorem test_reset_zero : seen (execReset (reading2 0x00#8 0x00#8))
    = some (ok .unit, readCalls 0x00#8 ++ [.inl [0x00#8, 0x80#8, 0x00#8]]) := by decide
/-- V1. -/
theorem test_getBrng : seen (execGetBrng (reading2 0x39#8 0x9F#8)) = some (ok (.int 32), readCalls 0x00#8) := by decide
/-- P4 command 7. -/
theorem test_getBrng_16 : said (execGetBrng (reading2 0x87#8 0xCF#8)) = ok (.int 16) := by decide
/-- V5. -/
theorem test_setBrng : seen (execSetBrng (.int 16) (reading2 0x39#8 0x9F#8))
    = some (ok .unit, readCalls 0x00#8 ++ [.inl [0x00#8, 0x19#8, 0x9F#8]]) := by decide
/-- V8. -/
theorem test_setBrng_fault : (after (execSetBrng (.int 24) (reading2 0x39#8 0x9F#8)) State.reset).faultCause
    = some (.programmingError .invalidOperand) ∧
    seen (execSetBrng (.int 24) (reading2 0x39#8 0x9F#8)) = some (none, []) := by decide
/-- V2. -/
theorem test_getPga : said (execGetPga (reading2 0x29#8 0x9F#8)) = ok (.int 2) ∧
    said (execGetPga (reading2 0x31#8 0x9F#8)) = ok (.int 4) := by decide
/-- V10: bits 15 and 14 are kept. -/
theorem test_setPga : seen (execSetPga (.int 2) (reading2 0xC0#8 0x00#8))
    = some (ok .unit, readCalls 0x00#8 ++ [.inl [0x00#8, 0xC8#8, 0x00#8]]) := by decide
/-- V11: a short read ends the setter, with no write. -/
theorem test_setPga_short : seen (execSetPga (.int 4) (reading [.bytes [0x39#8]]))
    = some (err (.transport (.shortRead 1)), readCalls 0x00#8) := by decide
/-- W3, and V3 code 9. -/
theorem test_getBadc : said (execGetBadc (reading2 0x02#8 0x00#8)) = ok (.pair 1 9) ∧
    said (execGetBadc (reading2 0x04#8 0x80#8)) = ok (.pair 2 12) := by decide
/-- V6: the smallest code of (1, 12) is 3. -/
theorem test_setBadc : seen (execSetBadc (.int 1) (.int 12) (reading2 0x00#8 0x00#8))
    = some (ok .unit, readCalls 0x00#8 ++ [.inl [0x00#8, 0x01#8, 0x80#8]]) := by decide
/-- V5. -/
theorem test_setBadc_top : seen (execSetBadc (.int 128) (.int 12) (reading2 0x39#8 0x9F#8))
    = some (ok .unit, readCalls 0x00#8 ++ [.inl [0x00#8, 0x3F#8, 0x9F#8]]) := by decide
/-- W3. -/
theorem test_getSadc : said (execGetSadc (reading2 0x00#8 0x38#8)) = ok (.pair 1 12) ∧
    said (execGetSadc (reading2 0x00#8 0x20#8)) = ok (.pair 1 9) := by decide
/-- V6. -/
theorem test_setSadc : seen (execSetSadc (.int 2) (.int 12) (reading2 0x00#8 0x00#8))
    = some (ok .unit, readCalls 0x00#8 ++ [.inl [0x00#8, 0x00#8, 0x48#8]]) := by decide
theorem test_setSadc_ones : seen (execSetSadc (.int 1) (.int 11) (reading2 0xFF#8 0xFF#8))
    = some (ok .unit, readCalls 0x00#8 ++ [.inl [0x00#8, 0xFF#8, 0x97#8]]) := by decide
/-- V4, codes 3 and 4. -/
theorem test_getMode : said (execGetMode (reading2 0x00#8 0x03#8)) = ok (.sym "shunt_and_bus_voltage_triggered") ∧
    said (execGetMode (reading2 0x00#8 0x04#8)) = ok (.sym "adc_off") := by decide
/-- V7. -/
theorem test_setMode : seen (execSetMode (.sym "adc_off") (reading2 0x00#8 0x00#8))
    = some (ok .unit, readCalls 0x00#8 ++ [.inl [0x00#8, 0x00#8, 0x04#8]]) := by decide
/-- V8: an `int` is no mode. -/
theorem test_setMode_fault : (after (execSetMode (.int 4) (reading2 0x00#8 0x00#8)) State.reset).faulted = true := by decide

/-! ## Calibration and divisors (V12 to V14, W7) -/

/-- W7 and V13. -/
theorem test_getCal : seen (execGetCal (reading2 0xAB#8 0xCD#8)) = some (ok (.int 43981), readCalls 0x05#8) ∧
    said (execGetCal (reading2 0x80#8 0x00#8)) = ok (.int 32768) := by decide
/-- W7: one call, the address byte first. -/
theorem test_setCal : seen (execSetCal (.int 0xABCD) (reading [])) = some (ok .unit, [.inl [0x05#8, 0xAB#8, 0xCD#8]]) := by
  decide
/-- V12: the range check, before any call. -/
theorem test_setCal_range : seen (execSetCal (.int (-1)) (reading [])) = some (err .calOutOfRange, []) ∧
    seen (execSetCal (.int 65536) (reading [])) = some (err .calOutOfRange, []) ∧
    said (execSetCal (.int 65535) (reading [])) = ok .unit := by decide
/-- V14: the divisor comes back as it was given, its kind kept. -/
theorem test_getCdiv : said (execGetCdiv (after (execSetCdiv (.f64 0x3FE0000000000000#64) (reading [])) State.reset))
    = ok (.num (.f64 0x3FE0000000000000#64)) := by decide
/-- V14: zero is accepted, and an infinity faults. -/
theorem test_setCdiv : seen (execSetCdiv (.int 0) (reading [])) = some (ok .unit, []) ∧
    (after (execSetCdiv (.f64 0x7FF0000000000000#64) (reading [])) State.reset).faulted = true := by decide
theorem test_getPdiv : said (execGetPdiv (after (execSetPdiv (.int 20) (reading [])) State.reset)) = ok (.num (.int 20)) := by
  decide
theorem test_setPdiv : (after (execSetPdiv (.sym "x") (reading [])) State.reset).faulted = true := by decide

/-! ## Measurement (V15 to V20, W4 to W6, W8) -/

/-- W5: four calls, the configuration first. -/
theorem test_shuntVoltage : seen (execShuntVoltage (shuntReading 0x21#8 0x0F#8 0xA0#8))
    = some (ok (.f64 0x4044000000000000#64), readCalls 0x00#8 ++ readCalls 0x01#8) := by decide +kernel
/-- V15: 0xA000 at gain 8, and the mismatch at gain 2, after all four calls. -/
theorem test_shuntVoltage_pad : said (execShuntVoltage (shuntReading 0x39#8 0xA0#8 0x00#8))
      = ok (.f64 0xC06EB851EB851EB8#64) ∧
    seen (execShuntVoltage (shuntReading 0x29#8 0xA0#8 0x00#8))
      = some (err .invalidShuntVoltageValue, readCalls 0x00#8 ++ readCalls 0x01#8) := by decide +kernel
/-- W4. -/
theorem test_busVoltage : seen (execBusVoltage (reading2 0xFA#8 0x00#8))
    = some (ok (.f64 0x4040000000000000#64), readCalls 0x02#8) := by decide +kernel
/-- V17: the flags do not enter the voltage, and the greatest count. -/
theorem test_busVoltage_top : said (execBusVoltage (reading2 0xFF#8 0xFF#8)) = ok (.f64 0x404061CAC083126F#64) ∧
    said (execBusVoltage (reading2 0x00#8 0x48#8)) = ok (.f64 0x3FA26E978D4FDF3C#64) := by decide +kernel
/-- V17, V18. -/
theorem test_convReady : said (execConvReady (reading2 0x00#8 0x02#8)) = ok (.bool true) ∧
    said (execConvReady (reading2 0x00#8 0x05#8)) = ok (.bool false) := by decide
theorem test_convReady_masked : seen (execConvReady (builtIn (.oracle [.error e1] [])))
    = some (ok (.bool false), [.inl [0x02#8]]) := by decide
theorem test_mathOvf : said (execMathOvf (reading2 0x00#8 0x01#8)) = ok (.bool true) ∧
    said (execMathOvf (reading2 0x00#8 0x06#8)) = ok (.bool false) := by decide
theorem test_mathOvf_masked : said (execMathOvf (reading [.bytes [0x00#8, 0x01#8, 0x01#8]])) = ok (.bool false) := by decide
/-- W8, and V19: a negative divisor of raw 0 gives -0.0. -/
theorem test_current : seen (execCurrent (reading2 0x12#8 0x34#8))
    = some (ok (.f64 0x40A2340000000000#64), readCalls 0x04#8) := by decide +kernel
theorem test_current_neg_zero : said (execCurrent (withDivisors (.int (-1)) (.int 1) (reading2 0x00#8 0x00#8)))
    = ok (.f64 0x8000000000000000#64) := by decide +kernel
/-- V19, and V22's last row: the read's failure comes before the divisor's check. -/
theorem test_power : said (execPower (withDivisors (.int 0) (.f64 0x3FB999999999999A#64) (reading2 0x00#8 0x64#8)))
    = ok (.f64 0x408F400000000000#64) := by decide +kernel
theorem test_power_zero : seen (execPower (withDivisors (.int 1) (.int 0) (reading2 0x10#8 0x00#8)))
      = some (err (.zeroDivisor .power), readCalls 0x03#8) ∧
    said (execPower (withDivisors (.int 1) (.int 0) (reading [.error e1]))) = err (.transport e1) := by decide +kernel
/-- V19: rounded quotients. -/
theorem test_scale_rounds : scale 0x1234#16 (.int 3) .current = .ok 0x4098455555555555#64 ∧
    scale 0x0001#16 (.int 3) .current = .ok 0x3FD5555555555555#64 ∧
    scale 0x1000#16 (.int 20) .power = .ok 0x406999999999999A#64 ∧
    scale 0x8000#16 (.int 1) .power = .ok 0x40E0000000000000#64 := by decide +kernel
/-- V19: an integer divisor above the binary64 range. -/
theorem test_scale_out_of_range : scale 1#16 (.int (2 ^ 1024)) .current = .error (.divisorOutOfRange .current) := by
  decide +kernel
/-- V20 and V15: products round once. -/
theorem test_shunt_products : decodeShunt 8 0x0023#16 = .ok 0x3FD6666666666667#64 ∧
    decodeShunt 2 0x3FFF#16 = .ok 0x40647A8F5C28F5C3#64 ∧ decodeShunt 1 0xF061#16 = .ok 0xC043FEB851EB851F#64 ∧
    decodeShunt 1 0xFFFF#16 = .ok 0xBF847AE147AE147B#64 := by decide +kernel

/-! ## Lifecycle and the check order (V21, V22) -/

/-- V21. -/
theorem test_construct : said (execConstruct (.handle h0) (.int 2) (.f64 0x4010000000000000#64) State.reset) = ok .unit ∧
    (after (execConstruct (.handle h0) (.int 2) (.f64 0x4010000000000000#64) State.reset) State.reset).pdiv
      = some (.f64 0x4010000000000000#64) := by decide
theorem test_construct_missing : said (execConstruct .none (.int 2) (.int 4) State.reset) = err .missingHandle ∧
    said (execConstruct (.handle h0) .none .none State.reset) = err .missingCurrentDivisor ∧
    said (execConstruct (.handle h0) (.int 2) .none State.reset) = err .missingPowerDivisor ∧
    said (execConstruct (.handle h0) (.int 1) (.int 1) (reading [])) = err .alreadyConstructed := by decide
theorem test_release : seen (execRelease (reading [])) = some (ok .unit, []) ∧
    (after (execRelease (reading [])) State.reset).handle = none := by decide
theorem test_release_twice : said (execRelease State.reset) = err .notConstructed := by decide
/-- V22: the context check comes before the operand checks. -/
theorem test_check_order : said (execSetPga (.int 3) State.reset) = err .notConstructed ∧
    said (execSetCal (.int 65536) State.reset) = err .notConstructed ∧
    said (execConvReady State.reset) = err .notConstructed := by decide
/-- V22: a faulted CORE refuses CONSTRUCT. -/
theorem test_sticky : (after (execConstruct (.handle h0) (.int 1) (.int 1)
    { State.reset with faulted := true }) State.reset).refused = true := by decide

/-- R82's status numbers, on responses of operations: a scripted failure, SET_CAL -1, GET_PGA at reset, a zero divisor. -/
theorem test_status_numbers :
    (said (execGetPga (reading [.error e1]))).map Response.status = some 1#3 ∧
    (said (execSetCal (.int (-1)) (reading []))).map Response.status = some 2#3 ∧
    (said (execGetPga State.reset)).map Response.status = some 3#3 ∧
    (said (execPower (withDivisors (.int 1) (.int 0) (reading2 0x10#8 0x00#8)))).map Response.status = some 4#3 := by
  decide +kernel

/-! ## The mock store (W2, P3) -/

/-- W2: SET_BADC on both seeds. -/
theorem test_mock_badc : (after (execSetBadc (.int 128) (.int 12) (seeded 0x0000#16 [])) State.reset).bank
      = some ⟨0x0780#16, 0#16, 0#16, 0#16, 0#16, 0#16⟩ ∧
    (after (execSetBadc (.int 1) (.int 9) (seeded 0xFFFF#16 [])) State.reset).bank
      = some ⟨0xF87F#16, 0#16, 0#16, 0#16, 0#16, 0#16⟩ := by decide
/-- P3 command 4: the scripted third call fails, and the cell keeps its value. -/
theorem test_mock_failure : seen (execSetMode (.sym "adc_off") (seeded 0xFFFF#16 [(3, e1), (5, e2)]))
      = some (err (.transport e1), readCalls 0x00#8 ++ [.inl [0x00#8, 0xFF#8, 0xFC#8]]) ∧
    (after (execSetMode (.sym "adc_off") (seeded 0xFFFF#16 [(3, e1), (5, e2)])) State.reset).bank
      = some ⟨0xFFFF#16, 0#16, 0#16, 0#16, 0#16, 0#16⟩ := by decide

/-! ## Witnesses: states and operands that meet the hypotheses of the statements in Certificates/Slice0/Obligations.lean

The common ones first. -/

/-- `Ready`, the one hypothesis on the state of ResetOutcomes, the getters, the setters, the divisor operations and the
measurements. -/
theorem witness_ready : (reading2 0x39#8 0x9F#8).Ready ∧ (seeded 0x399F#16 []).Ready := by decide
/-- `Clear` without and with a device context: DeviceContextChecks, ConstructOutcomes, ReleaseOutcomes. -/
theorem witness_clear : State.reset.Clear ∧ State.reset.constructed = false ∧
    (reading []).Clear ∧ (reading []).constructed = true := by decide

/-- A configuration read that succeeds, and the write after it (SetterRuns: ResetOutcomes, the four Set…Outcomes; GetterRuns
of register 0: RangeAndGainGetters, AdcGetters, ModeGetter). -/
theorem witness_read_ok : ∃ s1 s2, memRead .configuration (reading2 0x39#8 0x9F#8) = (.ok 0x399F#16, s1) ∧
    memWrite .configuration 0xB99F#16 s1 = (.ok, s2) := ⟨_, _, rfl, rfl⟩
/-- A configuration read that succeeds and a write that fails. -/
theorem witness_write_error : ∃ s1 s2, memRead .configuration (seeded 0xFFFF#16 [(3, e1)]) = (.ok 0xFFFF#16, s1) ∧
    memWrite .configuration 0xFFFC#16 s1 = (.error e1, s2) := ⟨_, _, rfl, rfl⟩
/-- A read that fails: at the selection, at the read, and by its length 0, 1, 3. -/
theorem witness_read_error :
    (∃ s1, memRead .configuration (builtIn (.oracle [.error e1] [])) = (.error e1, s1)) ∧
    (∃ s1, memRead .configuration (reading [.error e2]) = (.error e2, s1)) ∧
    (∃ s1, memRead .configuration (reading [.bytes []]) = (.error (.shortRead 0), s1)) ∧
    (∃ s1, memRead .busVoltage (reading [.bytes [1#8]]) = (.error (.shortRead 1), s1)) ∧
    (∃ s1, memRead .calibration (reading [.bytes [1#8, 2#8, 3#8]]) = (.error (.shortRead 3), s1)) :=
  ⟨⟨_, rfl⟩, ⟨_, rfl⟩, ⟨_, rfl⟩, ⟨_, rfl⟩, ⟨_, rfl⟩⟩
/-- The other four registers read (GetterRuns and ScaledRuns of registers 2 to 5; CalibrationGetter, BusVoltageOutcomes,
FlagOperationsNeverFail). -/
theorem witness_read_others :
    (∃ s1, memRead .busVoltage (reading2 0xFA#8 0x03#8) = (.ok 0xFA03#16, s1)) ∧
    (∃ s1, memRead .power (reading2 0x10#8 0x00#8) = (.ok 0x1000#16, s1)) ∧
    (∃ s1, memRead .current (reading2 0x12#8 0x34#8) = (.ok 0x1234#16, s1)) ∧
    (∃ s1, memRead .calibration (reading2 0xFF#8 0xFF#8) = (.ok 0xFFFF#16, s1)) := ⟨⟨_, rfl⟩, ⟨_, rfl⟩, ⟨_, rfl⟩, ⟨_, rfl⟩⟩

/-- RESET and SET_CAL with operands in slots they do not read. -/
theorem witness_DecodeAndEncodeAgree : carries ⟨0x10#8, .int 7, .sym "x", .handle h0⟩ .reset ∧
    carries ⟨0x21#8, .int 5, .int 6, .none⟩ (.setCal (.int 5)) ∧
    decode ⟨0x21#8, .int 5, .int 6, .none⟩ = .ok (.setCal (.int 5)) := ⟨by simp [carries, slotsRead, Instr.opsel],
  by simp [carries, slotsRead, Instr.opsel, Instr.operands], rfl⟩
theorem witness_UnassignedOpselRefused : ∃ c rest, (placeCommand (tableCommand 8 0xFF) State.reset).inbox
    = .command c :: rest ∧ ∀ i : Instr, i.opsel ≠ c.opsel :=
  ⟨tableCommand 8 0xFF, [], rfl, fun i => by cases i <;> simp [Instr.opsel, tableCommand]⟩
theorem witness_StepRunsDecodedInstruction : (∃ c rest, (State.reset.withFetchWord 8 0x13).inbox = .command c :: rest ∧
    decode c = .ok .getPga) ∧ State.reset.inbox = [] := ⟨⟨_, _, rfl, rfl⟩, rfl⟩
theorem witness_BlockResetStep : ({ reading [] with inbox := [.blockReset] } : State).inbox = .blockReset :: [] := rfl
theorem witness_StickyMarksRefuseEveryCommand : ∃ c rest,
    (placeCommand (tableCommand 8 0x40) { State.reset with faulted := true }).inbox = .command c :: rest ∧
    (placeCommand (tableCommand 8 0x40) { State.reset with faulted := true }).faulted = true ∧
    ({ State.reset with refused := true } : State).refused = true := ⟨_, _, rfl, rfl, rfl⟩
theorem witness_OnlyBlockResetClearsMarks : ∃ t,
    step (placeCommand (tableCommand 8 0x41) { State.reset with faulted := true, refused := true }) = .next t ∧
    (placeCommand (tableCommand 8 0x41) { State.reset with faulted := true, refused := true }).inbox.head?
      ≠ some .blockReset := ⟨_, rfl, by decide⟩
theorem witness_DeviceContextChecks : State.reset.Clear ∧ State.reset.constructed = false ∧
    (∀ a b c, Instr.getPga ≠ .construct a b c) ∧ (reading []).Clear ∧ (reading []).constructed = true :=
  ⟨by decide, rfl, fun _ _ _ => by simp, by decide, rfl⟩
theorem witness_IllFormedOperandFaults : (reading []).Ready ∧ (Instr.setBrng (.int 24)).wellFormed = false ∧
    ∀ a b c, Instr.setBrng (.int 24) ≠ .construct a b c := ⟨by decide, by decide, fun _ _ _ => by simp⟩
theorem witness_WellFormedNeverFaults : (Instr.setCal (.int 65536)).wellFormed = true ∧
    ∃ t, exec (.setCal (.int 65536)) (reading []) = .next t := ⟨by decide, _, rfl⟩
theorem witness_ConstructOutcomes :
    (Operand.int 7).isHandleOrNone = false ∧ (Operand.sym "a").isNumOrNone = false ∧
    (Operand.f64 0x7FF0000000000000#64).isNumOrNone = false ∧ (Operand.int 2).isNum = true ∧
    numValid (.int 0) = true ∧ numValid (.f64 0x7FEFFFFFFFFFFFFF#64) = true := by decide
/-- Each clause of RegisterReadFrames: a failed selection, a failed read, two bytes, and lengths other than two. -/
theorem witness_RegisterReadFrames :
    (envWrite (.oracle [.error e1] []) [] (some h0) [0x01#8]).1 = .error e1 ∧
    (envWrite (.oracle [.ok] []) [] (some h0) [0x01#8]).1 = .ok ∧
    (envRead (.oracle [] [.error e2]) [] (some h0) 2).1 = .error e2 ∧
    (envRead (.oracle [] [.bytes [0xAB#8, 0xCD#8]]) [] (some h0) 2).1 = .bytes [0xAB#8, 0xCD#8] ∧
    (envRead (.oracle [] [.bytes [0xAB#8]]) [] (some h0) 2).1 = .bytes [0xAB#8] ∧ [0xAB#8].length ≠ 2 := by decide
theorem witness_RegisterIdsAndByteOrder : 5 < (6#8 : Byte).toNat := by decide
theorem witness_MockStoreAnswers : ([(3, e1), (5, e2)] : List (Nat × TransportReason)).lookup (2 + 1) = some e1 ∧
    ([(3, e1), (5, e2)] : List (Nat × TransportReason)).lookup (3 + 1) = none := by decide
theorem witness_AdcDuplicatesAndSmallestCode : encAdc (.int 1) (.int 12) = some 3#4 ∧
    encAdc (.int 128) (.int 12) = some 15#4 := by decide
theorem witness_SetBrngOutcomes : (Operand.int 24) ≠ .int 16 ∧ (Operand.int 24) ≠ .int 32 := by decide
theorem witness_SetPgaOutcomes : (Operand.int 16) ≠ .int 1 ∧ (Operand.int 16) ≠ .int 2 ∧ (Operand.int 16) ≠ .int 4 ∧
    (Operand.int 16) ≠ .int 8 := by decide
theorem witness_SetAdcOutcomes :
    ∀ row ∈ adcEncodeTable, ¬ ((Operand.int 2) = .int row.1.1 ∧ (Operand.int 9) = .int row.1.2) := by decide
theorem witness_SetModeOutcomes : ∀ n ∈ modeNames, (Operand.int 4) ≠ .sym n := by decide
theorem witness_SettersIssueThreeCalls :
    (builtIn (.oracle [.ok, .ok] [.bytes (wordBytes 0xFFFF#16)])).Ready ∧
    (builtIn (.oracle [.ok, .ok] [.bytes (wordBytes 0xFFFF#16)])).env
      = .oracle (.ok :: .ok :: []) (.bytes (wordBytes 0xFFFF#16) :: []) ∧ setterWords.length = 37 := by decide
theorem witness_SetThenGetReturnsOperand : ∃ m, (seeded 0xFFFF#16 []).Ready ∧ (seeded 0xFFFF#16 []).env = .mockStore m ∧
    m.failures = [] ∧ fieldPairs ≠ [] := ⟨_, by decide, rfl, rfl, by decide⟩
/-- Both ends of both clauses, and both answers of the write. -/
theorem witness_SetCalOutcomes : ((-1 : Int) < 0 ∨ 65535 < (-1 : Int)) ∧ ((65536 : Int) < 0 ∨ 65535 < (65536 : Int)) ∧
    (0x0000#16 : Word).toNat = 0 ∧ (0xFFFF#16 : Word).toNat = 65535 ∧ (Operand.f64 0x40B0000000000000#64).isInt = false ∧
    (∃ s1, memWrite .calibration 0xFFFF#16 (reading []) = (.ok, s1)) ∧
    (∃ s1, memWrite .calibration 0x0000#16 (builtIn (.oracle [.error e1] [])) = (.error e1, s1)) :=
  ⟨by decide, by decide, by decide, by decide, by decide, ⟨_, rfl⟩, ⟨_, rfl⟩⟩
theorem witness_DivisorGettersAndSetters : (reading []).Ready ∧ (reading []).cdiv = some (.int 2) ∧
    (reading []).pdiv = some (.f64 0x4010000000000000#64) ∧ numValid (.int 0) = true ∧
    numValid (.f64 0x8000000000000000#64) = true ∧ (Operand.f64 0x7FF0000000000000#64).isNum = false := by decide
/-- 1/3 rounds to a finite value; 2^1024 does not, and the bound itself does not (num and den positive in each). -/
theorem witness_RoundingIsNearestTiesToEven : (fl64 false 1 3).isFinite = true ∧
    (fl64 false (2 ^ 1024) 1).isFinite = false ∧ (fl64 false overflowBound 1).isFinite = false ∧
    (fl64 false (overflowBound - 1) 1).isFinite = true ∧ F64.isFinite 0x3FF0000000000000#64 = true := by decide +kernel
/-- The patterns at the edges of the invalid ranges, and their counts (also ShuntCountIsSignExtension's). -/
theorem witness_InvalidShuntPatterns :
    shuntCount 1 0x1FFF#16 = some 8191 ∧ shuntCount 1 0x2000#16 = none ∧ shuntCount 1 0xDFFF#16 = none ∧
    shuntCount 1 0xE000#16 = some (-8192) ∧ shuntCount 2 0x3FFF#16 = some 16383 ∧ shuntCount 2 0x4000#16 = none ∧
    shuntCount 2 0xBFFF#16 = none ∧ shuntCount 2 0xC000#16 = some (-16384) ∧ shuntCount 3 0#16 = none := by decide
theorem witness_ShuntDecodeMonotoneAndLossless : shuntCount 2 0x3FFE#16 = some 16382 ∧
    shuntCount 2 0x3FFF#16 = some 16383 ∧ (16382 : Int) ≤ 16383 ∧
    decodeShunt 2 0x3FFE#16 = .ok (mulCount 16382 cShunt) ∧ decodeShunt 2 0x3FFF#16 = .ok (mulCount 16383 cShunt) ∧
    gainShift 2 = some 2 ∧ (0x3FFF#16 : Word).getLsbD 15 = false := by decide +kernel
/-- Both reads succeed, at a valid and an invalid pattern; and the second read fails. -/
theorem witness_ShuntVoltageOutcomes :
    (∃ s1 s2, memRead .configuration (shuntReading 0x29#8 0x3F#8 0xFF#8) = (.ok 0x299F#16, s1) ∧
      memRead .shuntVoltage s1 = (.ok 0x3FFF#16, s2)) ∧
    (∃ s1 s2, memRead .configuration (shuntReading 0x29#8 0x40#8 0x00#8) = (.ok 0x299F#16, s1) ∧
      memRead .shuntVoltage s1 = (.ok 0x4000#16, s2)) ∧
    (∃ s1 s2, memRead .configuration (reading [.bytes [0x29#8, 0x9F#8], .error e2]) = (.ok 0x299F#16, s1) ∧
      memRead .shuntVoltage s1 = (.error e2, s2)) ∧
    shuntCount (2 ^ ((0x299F#16 : Word).toNat / 2048 % 4)) 0x3FFF#16 = some 16383 ∧
    shuntCount (2 ^ ((0x299F#16 : Word).toNat / 2048 % 4)) 0x4000#16 = none :=
  ⟨⟨_, _, rfl, rfl⟩, ⟨_, _, rfl, rfl⟩, ⟨_, _, rfl, rfl⟩, by decide, by decide⟩
theorem witness_ScaledOperationOutcomes : (reading []).Ready ∧ (reading []).cdiv = some (.int 2) ∧
    scale 0x1234#16 (.int 2) .current = .ok 0x40A2340000000000#64 ∧
    scale 0x1000#16 (.int 0) .power = .error (.zeroDivisor .power) := by decide +kernel
/-- The bound and the integer below it. -/
theorem witness_ScaleRejectsDivisors : overflowBound ≤ (-(overflowBound : Int)).natAbs ∧
    ¬ overflowBound ≤ ((overflowBound : Int) - 1).natAbs ∧ ((overflowBound : Int) - 1).natAbs < overflowBound ∧
    ((overflowBound : Int) - 1) ≠ 0 ∧ F64.isFinite 0x0000000000000001#64 = true ∧
    (0x0000000000000001#64 : F64) ≠ 0#64 ∧ (0x0000000000000001#64 : F64) ≠ 0x8000000000000000#64 ∧ F64.isFinite 0x8000000000000000#64 = true := by decide +kernel
/-- A finite quotient, a zero with a negative divisor, and a quotient by the smallest subnormal, which overflows. -/
theorem witness_ScaledResultIsNearestQuotient : scale 0x1234#16 (.int 3) .current = .ok 0x4098455555555555#64 ∧
    scale 0#16 (.int (-1)) .current = .ok 0x8000000000000000#64 ∧
    scale 0xFFFF#16 (.f64 0x0000000000000001#64) .power = .ok 0x7FF0000000000000#64 ∧
    F64.isFinite 0x4098455555555555#64 = true ∧ F64.isFinite 0#64 = true := by decide +kernel

/-! The frames: an operation that ends, with a value, an error, a fault and a refusal. -/

theorem witness_DeviceContextFrame : (∃ t, exec (.setCdiv (.int 3)) (reading []) = .next t) ∧
    (∃ t, exec (.setPdiv (.int 3)) (reading []) = .next t) ∧ (∃ t, exec .getPga (reading2 0x39#8 0x9F#8) = .next t) ∧
    changesContext .getPga = false := ⟨⟨_, rfl⟩, ⟨_, rfl⟩, ⟨_, rfl⟩, rfl⟩
theorem witness_ErrorResultChangesOnlyResponse : ∃ t, exec .getPga State.reset = .next t ∧
    t.responses = State.reset.responses ++ [errorResponse .notConstructed] ∧
    (errorResponse .notConstructed).status ≠ 0#3 := ⟨_, rfl, rfl, by decide⟩
theorem witness_OneResponsePerOperation : (∃ t, exec .getCdiv (reading []) = .next t ∧ t.Clear) ∧
    (∃ t, exec (.setCal (.sym "x")) (reading []) = .next t ∧ ¬ t.Clear) := ⟨⟨_, rfl, by decide⟩, ⟨_, rfl, by decide⟩⟩
/-- A read of two bytes, all answered, with a value; a written three-call setter is SettersIssueThreeCalls' witness. -/
theorem witness_CallsPerOperation : ∃ t evs, exec .getCal (reading2 0xAB#8 0xCD#8) = .next t ∧
    t.hist = (reading2 0xAB#8 0xCD#8).hist ++ evs ∧ t.responses = [] ++ [okResponse (.int 43981)] ∧
    (okResponse (.int 43981)).status = 0#3 ∧ evs.all answered = true ∧ evs.length = callCount .getCal :=
  ⟨_, [.write (some h0) [0x05#8] .ok, .read (some h0) 2 (.bytes [0xAB#8, 0xCD#8])], rfl, by decide, by decide, rfl,
    by decide, rfl⟩
theorem witness_MockRegistersFrame : (∃ t b, exec (.setCal (.int 4096)) (seeded 0x399F#16 []) = .next t ∧
      (seeded 0x399F#16 []).bank = some b) ∧ callCount (.setCal (.int 4096)) = 1 ∧ callCount .reset = 3 ∧
    callCount .getPga ≠ 3 ∧ callCount .getPga ≠ 1 := ⟨⟨_, _, rfl, rfl⟩, rfl, rfl, by decide, by decide⟩
theorem witness_DivisorsNeverTransmitted : ∃ t t', exec .current (reading2 0x12#8 0x34#8) = .next t ∧
    exec .current { reading2 0x12#8 0x34#8 with cdiv := some (.int 7), pdiv := none } = .next t' := ⟨_, _, rfl, rfl⟩

/-! The invariants, in a state that a run reaches and that is not reset. -/

/-- Constructed, one RESET issued and answered; its command the host's next move again. -/
def ranReset : State :=
  placeCommand (encode .reset) { reading2 0x39#8 0x9F#8 with
    rsp := ok .unit, responses := [okResponse .unit],
    hist := [.write (some h0) [0x00#8] .ok, .read (some h0) 2 (.bytes [0x39#8, 0x9F#8]),
      .write (some h0) [0x00#8, 0xB9#8, 0x9F#8] .ok] }

theorem witness_StepKeepsCoherence : ranReset.Coherent ∧ ∃ t, step ranReset = .next t :=
  ⟨⟨rfl, rfl, rfl, rfl, rfl, rfl⟩, _, rfl⟩
theorem witness_StepKeepsResponsesWellFormed : ranReset.ResponsesOk ∧ ∃ t, step ranReset = .next t :=
  ⟨⟨by decide, .inr (by decide)⟩, _, rfl⟩
theorem witness_StepKeepsTransactionsLegal : transactionsOk ranReset.hist = true ∧ ∃ t, step ranReset = .next t :=
  ⟨by decide, _, rfl⟩
/-- A run whose second command faults, and the end of that run. -/
theorem witness_FaultedRunsStayUnsuccessful :
    ∃ t u, 2 ≤ [encode (.construct (.handle h0) (.int 1) (.int 1)), encode (.setBrng (.int 24)), encode .getBrng].length ∧
    core.run 2 (launch (.oracle [] [])
      [encode (.construct (.handle h0) (.int 1) (.int 1)), encode (.setBrng (.int 24)), encode .getBrng]) = .next t ∧
    ¬ t.Clear ∧
    RunEnds (.oracle [] []) [encode (.construct (.handle h0) (.int 1) (.int 1)), encode (.setBrng (.int 24)),
      encode .getBrng] u := ⟨_, _, by decide, rfl, by decide, rfl, rfl⟩
theorem witness_EveryStepAnswersNextState : ranReset.Coherent := ⟨rfl, rfl, rfl, rfl, rfl, rfl⟩

end Sys2Proof.Tests
end

section
/-! SUPPORT. Proofs of the statements of spec/10_state.md: the device context stays whole, only a block reset clears a
mark, who writes the device context, one response per operation, and no divisor reaches the transport. All but the last
follow from `exec_ending` and `exec_of_marked`; the last compares two runs of one operation, so it has rules of its own
for the shared operations. -/

namespace Sys2Proof.Machine

/-! ## The state after an operation's calls and its context step -/

/-- A transport call writes no field of the device context. -/
theorem Calls.keeps_context {s u : State} {evs : List Event} (h : Calls s u evs) :
    u.constructed = s.constructed ∧ u.handle = s.handle ∧ u.cdiv = s.cdiv ∧ u.pdiv = s.pdiv := by
  rw [h.frame]
  exact ⟨rfl, rfl, rfl, rfl⟩

/-- An operation's calls and its context step leave the marks, the responses and the host's coming moves. -/
theorem ContextStep.keeps_record {i : Instr} {s u v : State} {evs : List Event} (ctx : ContextStep i u v)
    (calls : Calls s u evs) :
    v.faulted = s.faulted ∧ v.refused = s.refused ∧ v.responses = s.responses ∧ v.inbox = s.inbox := by
  rw [ctx.frame, calls.frame]
  exact ⟨rfl, rfl, rfl, rfl⟩

/-! ## Coherence (R22, R23, R24, R26) -/

theorem Calls.coherent {s u : State} {evs : List Event} (h : Calls s u evs) (hs : s.Coherent) : u.Coherent := by
  rw [h.frame]
  exact ⟨hs.handle, hs.cdiv, hs.pdiv, hs.cdivValid, hs.pdivValid, hs.cause⟩

theorem respond_coherent {s : State} (r : Response) (h : s.Coherent) : (respond r s).Coherent :=
  ⟨h.handle, h.cdiv, h.pdiv, h.cdivValid, h.pdivValid, h.cause⟩

theorem setRefused_coherent {s : State} (h : s.Coherent) : { s with refused := true }.Coherent :=
  ⟨h.handle, h.cdiv, h.pdiv, h.cdivValid, h.pdivValid, h.cause⟩

/-- A fault sets the mark and its cause together. -/
theorem setFaulted_coherent {s : State} (c : FaultCause) (h : s.Coherent) :
    { s with faulted := true, faultCause := some c }.Coherent :=
  ⟨h.handle, h.cdiv, h.pdiv, h.cdivValid, h.pdivValid, rfl⟩

theorem setInbox_coherent {s : State} (moves : List HostMove) (h : s.Coherent) : { s with inbox := moves }.Coherent :=
  ⟨h.handle, h.cdiv, h.pdiv, h.cdivValid, h.pdivValid, h.cause⟩

/-- A block reset leaves no device context and no mark, whatever was there. -/
theorem blockReset_coherent (s : State) : (blockReset s).Coherent :=
  ⟨rfl, rfl, rfl, rfl, rfl, rfl⟩

theorem exec_keeps_coherent {i : Instr} {s t : State} (hs : s.Coherent) (h : exec i s = .next t) : t.Coherent := by
  cases exec_ending h with
  | refused _ e => exact e ▸ setRefused_coherent hs
  | faulted _ _ e => exact e ▸ setFaulted_coherent _ hs
  | responded u v evs r _ calls _ _ ctx e => exact e ▸ respond_coherent r (ctx.coherent (calls.coherent hs))

/-- Settles O55: a step is waiting, a block reset, a refused command or an operation, and each keeps coherence. -/
theorem stepKeepsCoherence : Obligations.StepKeepsCoherence := by
  unfold Obligations.StepKeepsCoherence
  intro s t hs h
  rcases step_next_cases h with ⟨_, rfl⟩ | ⟨rest, _, rfl⟩ | ⟨c, rest, _, rfl | ⟨i, _, hx⟩⟩
  · exact hs
  · exact blockReset_coherent _
  · exact setRefused_coherent (setInbox_coherent rest hs)
  · exact exec_keeps_coherent (setInbox_coherent rest hs) hx

/-! ## The marks (R26, R27, R146) -/

/-- An operation keeps every mark that is set, and the cause of a fault: in a marked state it can only be refused. -/
theorem exec_keeps_marks {i : Instr} {s t : State} (h : exec i s = .next t) :
    (s.faulted = true → t.faulted = true ∧ t.faultCause = s.faultCause) ∧ (s.refused = true → t.refused = true) := by
  by_cases hc : s.Clear
  · simp [hc.1, hc.2]
  · rw [exec_of_marked hc i] at h
    cases h
    exact ⟨fun hf => ⟨hf, rfl⟩, fun _ => rfl⟩

/-- Settles O9: waiting and a refused command clear no mark, an operation keeps the marks, and a block reset is
excluded. -/
theorem onlyBlockResetClearsMarks : Obligations.OnlyBlockResetClearsMarks := by
  unfold Obligations.OnlyBlockResetClearsMarks
  intro s t h hnb
  rcases step_next_cases h with ⟨_, rfl⟩ | ⟨rest, hi, _⟩ | ⟨c, rest, _, rfl | ⟨i, _, hx⟩⟩
  · exact ⟨fun hf => ⟨hf, rfl⟩, id⟩
  · exact absurd (by rw [hi]; rfl) hnb
  · exact ⟨fun hf => ⟨hf, rfl⟩, fun _ => rfl⟩
  · exact exec_keeps_marks (s := { s with inbox := rest }) hx

/-! ## Who writes the device context (R21) -/

/-- Settles O48: a refusal and a fault write the marks only, transport calls write no field of the context, and the
context step says which fields each operation writes. -/
theorem deviceContextFrame : Obligations.DeviceContextFrame := by
  unfold Obligations.DeviceContextFrame
  intro s t i h
  cases exec_ending h with
  | refused _ e =>
    subst e
    exact ⟨rfl, fun _ => ⟨rfl, rfl, rfl, rfl⟩, fun _ _ => ⟨rfl, rfl, rfl⟩, fun _ _ => ⟨rfl, rfl, rfl⟩⟩
  | faulted _ _ e =>
    subst e
    exact ⟨rfl, fun _ => ⟨rfl, rfl, rfl, rfl⟩, fun _ _ => ⟨rfl, rfl, rfl⟩, fun _ _ => ⟨rfl, rfl, rfl⟩⟩
  | responded u v evs r _ calls _ _ ctx e =>
    subst e
    obtain ⟨hcon, hhandle, hcdiv, hpdiv⟩ := calls.keeps_context
    obtain ⟨-, -, -, hinbox⟩ := ctx.keeps_record calls
    refine ⟨hinbox, fun hi => ?_, fun a ha => ?_, fun a ha => ?_⟩
    · rw [ctx.same hi]
      exact ⟨hcon, hhandle, hcdiv, hpdiv⟩
    · rw [ctx.setCdiv a ha]
      exact ⟨hcon, hhandle, hpdiv⟩
    · rw [ctx.setPdiv a ha]
      exact ⟨hcon, hhandle, hcdiv⟩

/-! ## One response (R28) -/

/-- Settles O50: a refusal and a fault set a mark and nothing else that the statement names; every other ending is one
response, from a state whose marks and responses are those before the operation. -/
theorem oneResponsePerOperation : Obligations.OneResponsePerOperation := by
  unfold Obligations.OneResponsePerOperation
  intro s t i h
  cases exec_ending h with
  | refused _ e =>
    subst e
    exact .inr ⟨by simp [State.Clear], rfl, rfl, rfl, rfl⟩
  | faulted _ _ e =>
    subst e
    exact .inr ⟨by simp [State.Clear], rfl, rfl, rfl, rfl⟩
  | responded u v evs r hclear calls _ _ ctx e =>
    subst e
    obtain ⟨hfaulted, hrefused, hresponses, -⟩ := ctx.keeps_record calls
    exact .inl ⟨hclear, ⟨hfaulted.trans hclear.1, hrefused.trans hclear.2⟩, r, rfl, by simp [hresponses]⟩

/-! ## Two runs that differ in the divisors held (R25)

No check of R147 and no transport call reads a divisor, so each shared operation leaves the same history and environment
from a state and from that state with other divisors, as soon as what follows it does. -/

/-- The state with other divisors. -/
def State.withDivisors (c p : Option Num) (s : State) : State := { s with cdiv := c, pdiv := p }

/-- If both outcomes are next states, these have the same call history and environment. -/
def SameTransport (x y : Result) : Prop :=
  ∀ t t', x = .next t → y = .next t' → t'.hist = t.hist ∧ t'.env = t.env

theorem SameTransport.of_next {u v : State} (hhist : v.hist = u.hist) (henv : v.env = u.env) :
    SameTransport (.next u) (.next v) := by
  rintro _ _ ⟨⟩ ⟨⟩
  exact ⟨hhist, henv⟩

theorem SameTransport.of_fault_left (f : Fault) (y : Result) : SameTransport (.fault f) y := by
  rintro _ _ ⟨⟩

theorem SameTransport.of_fault_right (f : Fault) (x : Result) : SameTransport x (.fault f) := by
  rintro _ _ _ ⟨⟩

theorem memRead_withDivisors (r : RegId) (c p : Option Num) (s : State) :
    memRead r (s.withDivisors c p) = ((memRead r s).1, (memRead r s).2.withDivisors c p) := by
  have hw : transportWrite [regByte r] (s.withDivisors c p) =
      ((transportWrite [regByte r] s).1, (transportWrite [regByte r] s).2.withDivisors c p) := rfl
  unfold memRead
  rw [hw]
  rcases transportWrite [regByte r] s with ⟨_ | e, s1⟩ <;> rfl

theorem memWrite_withDivisors (r : WritableReg) (v : Word) (c p : Option Num) (s : State) :
    memWrite r v (s.withDivisors c p) = ((memWrite r v s).1, (memWrite r v s).2.withDivisors c p) := rfl

/-- Whatever divisors a state holds, the operation leaves the same call history and environment. -/
def IgnoresDivisors (op : State → Result) : Prop :=
  ∀ (s : State) (c p : Option Num), SameTransport (op s) (op (s.withDivisors c p))

theorem acceptAlways_ignoresDivisors {op : State → Result} (h : IgnoresDivisors op) :
    IgnoresDivisors fun s => acceptAlways s op := by
  intro s c p
  by_cases hc : s.Clear
  · simp only [acceptAlways_of_clear hc, acceptAlways_of_clear (show (s.withDivisors c p).Clear from hc)]
    exact h s c p
  · simp only [acceptAlways_of_marked hc, acceptAlways_of_marked (show ¬ (s.withDivisors c p).Clear from hc)]
    exact .of_next rfl rfl

/-- A choice on whether a device context exists: the divisors do not decide it. -/
theorem ite_constructed_ignoresDivisors {op op' : State → Result} (h : IgnoresDivisors op) (h' : IgnoresDivisors op') :
    IgnoresDivisors fun s => if s.constructed then op s else op' s := by
  intro s c p
  simp only [show (s.withDivisors c p).constructed = s.constructed from rfl]
  split
  · exact h s c p
  · exact h' s c p

theorem raiseError_ignoresDivisors (i : Info) : IgnoresDivisors (raiseError i) :=
  fun _ _ _ => .of_next rfl rfl

theorem programmingError_ignoresDivisors : IgnoresDivisors programmingError :=
  fun _ _ _ => .of_next rfl rfl

theorem accept_ignoresDivisors {op : State → Result} (h : IgnoresDivisors op) :
    IgnoresDivisors fun s => accept s op :=
  acceptAlways_ignoresDivisors (ite_constructed_ignoresDivisors h (raiseError_ignoresDivisors .notConstructed))

theorem withRead_sameTransport {r : RegId} {s : State} {c p : Option Num} {k k' : Word → State → Result}
    (h : ∀ v u, SameTransport (k v u) (k' v (u.withDivisors c p))) :
    SameTransport (withRead r s k) (withRead r (s.withDivisors c p) k') := by
  have hm := memRead_withDivisors r c p s
  rcases hr : memRead r s with ⟨e | v, u⟩ <;> rw [hr] at hm
  · rw [withRead_error hr, withRead_error hm]
    exact .of_next rfl rfl
  · rw [withRead_ok hr, withRead_ok hm]
    exact h v u

theorem withRead_ignoresDivisors {r : RegId} {k : Word → State → Result} (h : ∀ v, IgnoresDivisors (k v)) :
    IgnoresDivisors fun s => withRead r s k :=
  fun _ c p => withRead_sameTransport fun v u => h v u c p

theorem finishWrite_ignoresDivisors (r : WritableReg) (v : Word) : IgnoresDivisors (finishWrite r v) := by
  intro s c p
  have hm := memWrite_withDivisors r v c p s
  rcases hw : memWrite r v s with ⟨_ | e, u⟩ <;> rw [hw] at hm
  · rw [finishWrite_ok hw, finishWrite_ok hm]
    exact .of_next rfl rfl
  · rw [finishWrite_error hw, finishWrite_error hm]
    exact .of_next rfl rfl

theorem readFinish_ignoresDivisors {r : RegId} {f : Word → Value} :
    IgnoresDivisors fun s => withRead r s fun v u => finish (f v) u :=
  withRead_ignoresDivisors fun _ _ _ _ => .of_next rfl rfl

theorem readModifyWrite_ignoresDivisors {f : Word → Word} :
    IgnoresDivisors fun s => withRead .configuration s fun v u => finishWrite .configuration (f v) u :=
  withRead_ignoresDivisors fun v => finishWrite_ignoresDivisors .configuration (f v)

theorem setterOp_ignoresDivisors {f : BitField} {code : Option (BitVec f.width)} :
    IgnoresDivisors (setterOp f code) := by
  cases code with
  | none => exact programmingError_ignoresDivisors
  | some d => exact readModifyWrite_ignoresDivisors (f := fun v => setField f v d)

theorem flagOp_ignoresDivisors {flag : Word → Bool} : IgnoresDivisors (flagOp flag) := by
  intro s c p
  unfold flagOp
  rw [memRead_withDivisors]
  rcases memRead .busVoltage s with ⟨_ | _, u⟩ <;> exact .of_next rfl rfl

/-- A decoded value and an error both end with one response; the two results may differ, as CURRENT's and POWER's do. -/
theorem finishF64_sameTransport {s : State} {c p : Option Num} (x y : Except Info F64) :
    SameTransport (finishF64 x s) (finishF64 y (s.withDivisors c p)) := by
  cases x <;> cases y <;> exact .of_next rfl rfl

/-- CURRENT and POWER: the divisor is looked at after the read, and only its value is used. -/
theorem scaledOp_ignoresDivisors {r : RegId} {d : State → Option Num} {w : Which} :
    IgnoresDivisors fun s => scaledOp r (d s) w s := by
  refine fun s c p => withRead_sameTransport fun raw u => ?_
  cases d s with
  | none => exact .of_fault_left _ _
  | some n =>
    cases d (s.withDivisors c p) with
    | none => exact .of_fault_right _ _
    | some n' => exact finishF64_sameTransport _ _

/-- GET_CDIV and GET_PDIV: the divisor goes into the response only. -/
theorem getDivisorOp_ignoresDivisors {d : State → Option Num} : IgnoresDivisors fun s => getDivisorOp (d s) s := by
  intro s c p
  dsimp only
  cases d s with
  | none => exact .of_fault_left _ _
  | some n =>
    cases d (s.withDivisors c p) with
    | none => exact .of_fault_right _ _
    | some n' => exact .of_next rfl rfl

theorem execSetCal_ignoresDivisors (a : Operand) : IgnoresDivisors (execSetCal a) := by
  refine accept_ignoresDivisors ?_
  cases a with
  | int value =>
    intro s c p
    dsimp only
    split
    · exact raiseError_ignoresDivisors .calOutOfRange s c p
    · exact finishWrite_ignoresDivisors .calibration (BitVec.ofInt 16 value) s c p
  | none => exact programmingError_ignoresDivisors
  | f64 x => exact programmingError_ignoresDivisors
  | sym n => exact programmingError_ignoresDivisors
  | handle n => exact programmingError_ignoresDivisors

theorem execSetCdiv_ignoresDivisors (a : Operand) : IgnoresDivisors (execSetCdiv a) := by
  refine accept_ignoresDivisors ?_
  cases operandNum a with
  | none => exact programmingError_ignoresDivisors
  | some d => exact fun _ _ _ => .of_next rfl rfl

theorem execSetPdiv_ignoresDivisors (a : Operand) : IgnoresDivisors (execSetPdiv a) := by
  refine accept_ignoresDivisors ?_
  cases operandNum a with
  | none => exact programmingError_ignoresDivisors
  | some d => exact fun _ _ _ => .of_next rfl rfl

theorem execConstruct_ignoresDivisors (a b c : Operand) : IgnoresDivisors (execConstruct a b c) := by
  refine acceptAlways_ignoresDivisors (ite_constructed_ignoresDivisors (raiseError_ignoresDivisors _) ?_)
  cases constructChecks a b c with
  | missing i => exact raiseError_ignoresDivisors i
  | invalid => exact programmingError_ignoresDivisors
  | context h cd pd => exact fun _ _ _ => .of_next rfl rfl

theorem execRelease_ignoresDivisors : IgnoresDivisors execRelease :=
  acceptAlways_ignoresDivisors
    (ite_constructed_ignoresDivisors (fun _ _ _ => .of_next rfl rfl) (raiseError_ignoresDivisors .notConstructed))

theorem exec_ignoresDivisors (i : Instr) : IgnoresDivisors (exec i) := by
  cases i with
  | reset => exact accept_ignoresDivisors readModifyWrite_ignoresDivisors
  | getBrng => exact accept_ignoresDivisors readFinish_ignoresDivisors
  | getPga => exact accept_ignoresDivisors readFinish_ignoresDivisors
  | getBadc => exact accept_ignoresDivisors readFinish_ignoresDivisors
  | getSadc => exact accept_ignoresDivisors readFinish_ignoresDivisors
  | getMode => exact accept_ignoresDivisors readFinish_ignoresDivisors
  | getCal => exact accept_ignoresDivisors readFinish_ignoresDivisors
  | busVoltage => exact accept_ignoresDivisors readFinish_ignoresDivisors
  | setBrng a => exact accept_ignoresDivisors setterOp_ignoresDivisors
  | setPga a => exact accept_ignoresDivisors setterOp_ignoresDivisors
  | setBadc a b => exact accept_ignoresDivisors setterOp_ignoresDivisors
  | setSadc a b => exact accept_ignoresDivisors setterOp_ignoresDivisors
  | setMode a => exact accept_ignoresDivisors setterOp_ignoresDivisors
  | setCal a => exact execSetCal_ignoresDivisors a
  | getCdiv => exact accept_ignoresDivisors getDivisorOp_ignoresDivisors
  | getPdiv => exact accept_ignoresDivisors getDivisorOp_ignoresDivisors
  | setCdiv a => exact execSetCdiv_ignoresDivisors a
  | setPdiv a => exact execSetPdiv_ignoresDivisors a
  | shuntVoltage =>
    exact accept_ignoresDivisors (withRead_ignoresDivisors fun _ => withRead_ignoresDivisors fun _ _ _ _ =>
      finishF64_sameTransport _ _)
  | convReady => exact accept_ignoresDivisors flagOp_ignoresDivisors
  | mathOvf => exact accept_ignoresDivisors flagOp_ignoresDivisors
  | current => exact accept_ignoresDivisors scaledOp_ignoresDivisors
  | power => exact accept_ignoresDivisors scaledOp_ignoresDivisors
  | construct a b c => exact execConstruct_ignoresDivisors a b c
  | release => exact execRelease_ignoresDivisors

/-- Settles O53: the second run starts from the first one's state with other divisors. -/
theorem divisorsNeverTransmitted : Obligations.DivisorsNeverTransmitted := by
  unfold Obligations.DivisorsNeverTransmitted
  intro s t t' i c p h h'
  exact exec_ignoresDivisors i s c p t t' h h'

end Sys2Proof.Machine
end

section
/-! SUPPORT. Proofs of the statements of spec/20_memory.md: every step keeps the history a sequence of whole
transactions, which chip register an operation may write, the frames of a register read and write, the id bytes and the
byte order, and the mock store's answers. The first two follow from `exec_ending`; the others from one equation per case
of the transport's functions. -/

namespace Sys2Proof.Machine

/-! ## Ids and byte order (R42, R46) -/

theorem regOfByte_regByte (r : RegId) : regOfByte (regByte r) = some r := by cases r <;> rfl

theorem regOfByte_eq_none {b : Byte} (h : 5 < b.toNat) : regOfByte b = none := by
  unfold regOfByte
  split
  case h_7 => rfl
  all_goals exact absurd h (by decide)

theorem writableOfByte_regByte (r : WritableReg) : writableOfByte (regByte (writableReg r)) = some r := by
  cases r <;> rfl

theorem wordBytes_eq_extractLsb' (v : Word) : wordBytes v = [v.extractLsb' 8 8, v.extractLsb' 0 8] := by
  have hhi : BitVec.ofNat 8 (v.toNat / 256) = v.extractLsb' 8 8 :=
    BitVec.eq_of_toNat_eq (by simp [Nat.shiftRight_eq_div_pow])
  have hlo : BitVec.ofNat 8 v.toNat = v.extractLsb' 0 8 := BitVec.eq_of_toNat_eq (by simp)
  rw [wordBytes, hhi, hlo]

/-- Two bytes fit a register, so no bit is lost. -/
theorem wordOfBytes_toNat (h l : Byte) : (wordOfBytes h l).toNat = 256 * h.toNat + l.toNat := by
  rw [wordOfBytes, BitVec.toNat_ofNat]
  omega

theorem wordOfBytes_bytes (v : Word) :
    wordOfBytes (BitVec.ofNat 8 (v.toNat / 256)) (BitVec.ofNat 8 v.toNat) = v := by
  apply BitVec.eq_of_toNat_eq
  rw [wordOfBytes_toNat, BitVec.toNat_ofNat, BitVec.toNat_ofNat]
  omega

theorem wordBytes_wordOfBytes (h l : Byte) : wordBytes (wordOfBytes h l) = [h, l] := by
  have hhi : BitVec.ofNat 8 ((256 * h.toNat + l.toNat) / 256) = h := by
    rw [show (256 * h.toNat + l.toNat) / 256 = h.toNat by omega, BitVec.ofNat_toNat, BitVec.setWidth_eq]
  have hlo : BitVec.ofNat 8 (256 * h.toNat + l.toNat) = l := by
    apply BitVec.eq_of_toNat_eq
    rw [BitVec.toNat_ofNat]
    omega
  rw [wordBytes, wordOfBytes_toNat, hhi, hlo]

theorem answerWord_wordBytes (v : Word) : answerWord (.bytes (wordBytes v)) = .ok v :=
  congrArg Except.ok (wordOfBytes_bytes v)

theorem answerWord_of_length_ne {bs : List Byte} (h : bs.length ≠ 2) :
    answerWord (.bytes bs) = .error (.shortRead bs.length) := by
  match bs with
  | [] => rfl
  | [_] => rfl
  | [_, _] => exact absurd rfl h
  | _ :: _ :: _ :: _ => rfl

/-- Settles O17: the ids by their table, the byte order by arithmetic on the two bytes. -/
theorem registerIdsAndByteOrder : Obligations.RegisterIdsAndByteOrder :=
  ⟨rfl, regOfByte_regByte, fun _ => regOfByte_eq_none, wordBytes_eq_extractLsb', wordOfBytes_toNat, rfl, rfl,
    answerWord_wordBytes, wordBytes_wordOfBytes⟩

/-! ## The mock store (R48) -/

theorem mockWrite_scripted {m : MockStore} {k : Nat} {e : TransportReason} (h : m.failures.lookup k = some e)
    (bytes : List Byte) : mockWrite m k bytes = (.error e, m) := by
  simp only [mockWrite, scriptedFailure, h]

theorem mockWrite_unscripted {m : MockStore} {k : Nat} (h : m.failures.lookup k = none) (bytes : List Byte) :
    mockWrite m k bytes = mockFrame m bytes := by
  simp only [mockWrite, scriptedFailure, h]

theorem mockRead_scripted {m : MockStore} {k : Nat} {e : TransportReason} (h : m.failures.lookup k = some e) (n : Nat) :
    mockRead m k n = .error e := by
  simp only [mockRead, scriptedFailure, h]

theorem mockRead_unscripted {m : MockStore} {k : Nat} (h : m.failures.lookup k = none) :
    mockRead m k 2 = .bytes (wordBytes (bankGet m.bank m.sel)) := by
  simp only [mockRead, scriptedFailure, h, if_true]

/-- A selection frame. -/
theorem mockFrame_select (m : MockStore) (r : RegId) : mockFrame m [regByte r] = (.ok, { m with sel := r }) := by
  simp only [mockFrame, regOfByte_regByte]

/-- A write frame of one of the two writable registers. -/
theorem mockFrame_write (m : MockStore) (r : WritableReg) (v : Word) :
    mockFrame m (regByte (writableReg r) :: wordBytes v) =
      (.ok, { m with bank := bankSet m.bank r v, sel := writableReg r }) := by
  simp only [mockFrame, wordBytes, writableOfByte_regByte, wordOfBytes_bytes]

theorem envWrite_mockStore (m : MockStore) (hist : List Event) (h : Option Handle) (bytes : List Byte) :
    envWrite (.mockStore m) hist h bytes =
      ((mockWrite m (hist.length + 1) bytes).1, .mockStore (mockWrite m (hist.length + 1) bytes).2) := rfl

theorem envRead_mockStore (m : MockStore) (hist : List Event) (h : Option Handle) (n : Nat) :
    envRead (.mockStore m) hist h n = (mockRead m (hist.length + 1) n, .mockStore m) := rfl

/-- Settles O18: the failure script decides first; else the frame is a selection, a write or a two-byte read. -/
theorem mockStoreAnswers : Obligations.MockStoreAnswers := by
  unfold Obligations.MockStoreAnswers
  intro m hist h k
  refine ⟨fun e he => ⟨fun bytes => ?_, fun n => ?_⟩, fun hn => ⟨fun r => ?_, fun v => ?_, fun v => ?_, ?_⟩⟩
  · rw [envWrite_mockStore, mockWrite_scripted he]
  · rw [envRead_mockStore, mockRead_scripted he]
  · rw [envWrite_mockStore, mockWrite_unscripted hn, mockFrame_select]
  · rw [envWrite_mockStore, mockWrite_unscripted hn]
    exact congrArg (fun a => (a.1, Env.mockStore a.2)) (mockFrame_write m .configuration v)
  · rw [envWrite_mockStore, mockWrite_unscripted hn]
    exact congrArg (fun a => (a.1, Env.mockStore a.2)) (mockFrame_write m .calibration v)
  · rw [envRead_mockStore, mockRead_unscripted hn]

/-! ## The frames of a register read and write (R44, R45, R49) -/

theorem memRead_of_select_error {r : RegId} {s s1 : State} {e : TransportReason}
    (h : transportWrite [regByte r] s = (.error e, s1)) : memRead r s = (.error e, s1) := by
  simp only [memRead, h]

theorem memRead_of_selected {r : RegId} {s s1 s2 : State} {a : ReadAnswer}
    (hsel : transportWrite [regByte r] s = (.ok, s1)) (hread : transportRead 2 s1 = (a, s2)) :
    memRead r s = (answerWord a, s2) := by
  simp only [memRead, hsel, hread]

/-- Settles O15: the selection's answer decides whether there is a read, and the read's answer goes through
`answerWord`. -/
theorem registerReadFrames : Obligations.RegisterReadFrames := by
  unfold Obligations.RegisterReadFrames
  intro s r sel h1 rd s2
  refine ⟨fun e he => memRead_of_select_error (Prod.ext he rfl), fun hok => ?_⟩
  have hread : ∀ a, rd.1 = a → memRead r s = (answerWord a, s2) := fun a ha =>
    memRead_of_selected (s1 := { s with env := sel.2, hist := h1 }) (Prod.ext hok rfl) (Prod.ext ha rfl)
  refine ⟨fun e he => hread _ he, fun b0 b1 hb => ⟨_, hread _ hb, wordOfBytes_toNat b0 b1⟩,
    fun bs hb hlen => ?_⟩
  rw [hread _ hb, answerWord_of_length_ne hlen]

/-- Settles O16: `memWrite` is one transport call, whose value bytes are the two halves of the value. -/
theorem registerWriteFrame : Obligations.RegisterWriteFrame := by
  unfold Obligations.RegisterWriteFrame
  intro s r v
  rw [← wordBytes_eq_extractLsb']
  rfl

/-! ## What an operation leaves of the history and the mock store's registers -/

theorem Calls.hist {s u : State} {evs : List Event} (h : Calls s u evs) : u.hist = s.hist ++ evs := by
  rw [h.frame]

theorem ContextStep.keeps_hist {i : Instr} {u v : State} (ctx : ContextStep i u v) : v.hist = u.hist := by
  rw [ctx.frame]

theorem ContextStep.keeps_bank {i : Instr} {u v : State} (ctx : ContextStep i u v) : v.bank = u.bank := by
  rw [ctx.frame]
  rfl

@[simp] theorem respond_bank (r : Response) (s : State) : (respond r s).bank = s.bank := rfl

theorem exec_keeps_transactions {i : Instr} {s t : State} (hs : transactionsOk s.hist = true)
    (h : exec i s = .next t) : transactionsOk t.hist = true := by
  cases exec_ending h with
  | refused _ e => exact e ▸ hs
  | faulted _ _ e => exact e ▸ hs
  | responded u v evs r _ calls _ _ ctx e =>
    rw [e, respond_hist, ctx.keeps_hist, calls.hist]
    exact transactionsOk_append _ _ hs calls.whole

/-- Settles O57: only an operation makes calls, and it appends whole transactions. -/
theorem stepKeepsTransactionsLegal : Obligations.StepKeepsTransactionsLegal := by
  unfold Obligations.StepKeepsTransactionsLegal
  intro s t hs h
  rcases step_next_cases h with ⟨_, rfl⟩ | ⟨rest, _, rfl⟩ | ⟨c, rest, _, rfl | ⟨i, _, hx⟩⟩
  · exact hs
  · exact hs
  · exact hs
  · exact exec_keeps_transactions (s := { s with inbox := rest }) hs hx

/-- Settles O52: a refusal and a fault leave the environment, and after an operation's calls neither its context step
nor its response touches it. -/
theorem mockRegistersFrame : Obligations.MockRegistersFrame := by
  unfold Obligations.MockRegistersFrame
  intro s t i b h hb
  cases exec_ending h with
  | refused _ e => exact BankStep.of_eq (by rw [e]; rfl) b hb
  | faulted _ _ e => exact BankStep.of_eq (by rw [e]; rfl) b hb
  | responded u v evs r _ _ _ bank ctx e =>
    rw [e, respond_bank, ctx.keeps_bank]
    exact bank b hb

end Sys2Proof.Machine
end

section
/-! SUPPORT. Proofs of the statements of spec/30_encoding.md: commands and the instructions they decode to, the
configuration word and the tables of its fields, the shunt patterns a gain has no count for, and the responses an
operation may give. -/

namespace Sys2Proof.Machine

/-! ## Commands and instructions (R75, R77) -/

/-- A command decodes to the instruction it carries: only the slots that instruction reads are looked at. -/
theorem decode_of_carries {c : Command} {i : Instr} (h : carries c i) : decode c = .ok i := by
  obtain ⟨op, a, b, d⟩ := c
  obtain ⟨hop, ha, hb, hd⟩ := h
  cases hop
  cases i with
  | setBrng | setPga | setMode | setCal | setCdiv | setPdiv => cases ha (Nat.le_refl 1); rfl
  | setBadc | setSadc => cases ha (Nat.le_add_left 1 1); cases hb (Nat.le_refl 2); rfl
  | construct => cases ha (Nat.le_add_left 1 2); cases hb (Nat.le_add_left 2 1); cases hd (Nat.le_refl 3); rfl
  | _ => rfl

theorem encode_carries (i : Instr) : carries (encode i) i :=
  ⟨rfl, fun _ => rfl, fun _ => rfl, fun _ => rfl⟩

theorem opselRow (i : Instr) : Laws.OpselRow.Statement i := by
  open Laws in
  cases i
  exacts [OpselRow.reset, OpselRow.getBrng, OpselRow.setBrng _, OpselRow.getPga, OpselRow.setPga _, OpselRow.getBadc,
    OpselRow.setBadc _ _, OpselRow.getSadc, OpselRow.setSadc _ _, OpselRow.getMode, OpselRow.setMode _,
    OpselRow.getCal, OpselRow.setCal _, OpselRow.getCdiv, OpselRow.setCdiv _, OpselRow.getPdiv, OpselRow.setPdiv _,
    OpselRow.shuntVoltage, OpselRow.busVoltage, OpselRow.convReady, OpselRow.mathOvf, OpselRow.current,
    OpselRow.power, OpselRow.construct _ _ _, OpselRow.release]

/-- The opsel of an instruction selects an instruction of that opsel, whatever stands in the slots. -/
theorem decode_of_opsel {c : Command} {i : Instr} (h : i.opsel = c.opsel) :
    ∃ j, decode c = .ok j ∧ j.opsel = c.opsel := by
  obtain ⟨op, a, b, d⟩ := c
  cases h
  exact (opselRow i).2 a b d

theorem opsel_of_decode {c : Command} {i : Instr} (h : decode c = .ok i) : i.opsel = c.opsel := by
  unfold decode at h
  split at h
  case h_26 => cases h
  all_goals
    rename_i hop
    cases h
    exact hop.symm

/-- Settles O2: an instruction's own command carries it, and a command decodes to the instruction it carries. -/
theorem decodeAndEncodeAgree : Obligations.DecodeAndEncodeAgree :=
  ⟨fun i => decode_of_carries (encode_carries i), fun _ _ => decode_of_carries, fun _ _ => decode_of_opsel,
    fun _ _ => opsel_of_decode⟩

/-- Settles O1: the five rows of the decoder, the operands left open. -/
theorem opselWordsDecode : Obligations.OpselWordsDecode :=
  ⟨rfl, fun _ _ _ => rfl, fun _ _ _ => rfl, fun _ _ _ => rfl, fun _ _ _ => rfl⟩

/-- Settles O5: each line is assembled. -/
theorem assemblerExamples : Obligations.AssemblerExamples := by
  unfold Obligations.AssemblerExamples
  decide

/-! ## A step on a command (R76, R78, R169) -/

theorem step_of_waiting {s : State} (h : s.inbox = []) : step s = .next s := by
  simp only [step, h]

theorem step_of_decoded {s : State} {c : Command} {rest : List HostMove} {i : Instr}
    (hin : s.inbox = .command c :: rest) (hd : decode c = .ok i) : step s = exec i { s with inbox := rest } := by
  simp only [step, hin, hostMove, hd]

theorem step_of_rejected {s : State} {c : Command} {rest : List HostMove} {r : DecodeReject}
    (hin : s.inbox = .command c :: rest) (hd : decode c = .error r) : step s = refuse { s with inbox := rest } := by
  simp only [step, hin, hostMove, hd]

/-- Settles O4: a step runs what its command decodes to, or waits. -/
theorem stepRunsDecodedInstruction : Obligations.StepRunsDecodedInstruction :=
  fun _ => ⟨fun _ _ _ => step_of_decoded, step_of_waiting⟩

/-- A command whose opsel no instruction has is rejected: what it decoded to would have its opsel. -/
theorem decode_of_unassigned {c : Command} (h : ∀ i : Instr, i.opsel ≠ c.opsel) : ∃ r, decode c = .error r := by
  cases hd : decode c with
  | error r => exact ⟨r, rfl⟩
  | ok i => exact absurd (opsel_of_decode hd) (h i)

theorem unassigned_count :
    ((List.range 256).filter fun w => (decodeTableWord 8 w).isNone).length = 231 := by decide +kernel

/-- Settles O3: the 256 values are counted, and a step refuses a command that the decoder rejects. -/
theorem unassignedOpselRefused : Obligations.UnassignedOpselRefused := by
  refine ⟨unassigned_count, fun s c rest hin hop => ?_⟩
  obtain ⟨r, hd⟩ := decode_of_unassigned hop
  exact step_of_rejected hin hd

/-! ## The configuration word (R60, R62, R100, R101) -/

/-- Settles O19: the seven fields are a literal list. -/
theorem fieldMasksPartitionTheWord : Obligations.FieldMasksPartitionTheWord := by
  unfold Obligations.FieldMasksPartitionTheWord
  decide

theorem getLsbD_mask (f : BitField) {i : Nat} (hi : i < 16) :
    f.mask.getLsbD i = decide (f.lo ≤ i ∧ i < f.lo + f.width) := by
  simp only [BitField.mask, BitVec.getLsbD_ofNat, hi, decide_true, Bool.true_and, Nat.testBit_mul_two_pow,
    Nat.testBit_two_pow_sub_one, ← Bool.decide_and]
  exact decide_eq_decide.2 (by omega)

theorem getLsbD_getField (f : BitField) (v : Word) (i : Nat) :
    (getField f v).getLsbD i = (decide (i < f.width) && v.getLsbD (f.lo + i)) := by
  simp only [getField, BitVec.getLsbD_ofNat, Nat.testBit_shiftRight, BitVec.testBit_toNat]

/-- A set field holds the code's bits, and every other bit of the word stays. -/
theorem getLsbD_setField (f : BitField) (v : Word) (c : BitVec f.width) {i : Nat} (hi : i < 16) :
    (setField f v c).getLsbD i =
      if f.lo ≤ i ∧ i < f.lo + f.width then c.getLsbD (i - f.lo) else v.getLsbD i := by
  simp only [setField, BitVec.getLsbD_or, BitVec.getLsbD_and, BitVec.getLsbD_not, getLsbD_mask f hi,
    BitVec.getLsbD_shiftLeft, BitVec.getLsbD_setWidth, hi, decide_true, Bool.true_and]
  by_cases hlo : f.lo ≤ i
  · by_cases hhi : i < f.lo + f.width
    · simp [hlo, hhi, show i - f.lo < 16 by omega]
    · simp [hlo, hhi, c.getLsbD_of_ge (i - f.lo) (by omega)]
  · simp [hlo, Nat.lt_of_not_le hlo]

theorem getField_setField_same {f : BitField} (hf : f.lo + f.width ≤ 16) (v : Word) (c : BitVec f.width) :
    getField f (setField f v c) = c := by
  apply BitVec.eq_of_getLsbD_eq
  intro i hi
  rw [getLsbD_getField, getLsbD_setField f v c (by omega), if_pos (by omega)]
  simp [hi]

theorem getField_setField_disjoint {f g : BitField} (hf : f.lo + f.width ≤ 16)
    (hfg : f.lo + f.width ≤ g.lo ∨ g.lo + g.width ≤ f.lo) (v : Word) (c : BitVec g.width) :
    getField f (setField g v c) = getField f v := by
  apply BitVec.eq_of_getLsbD_eq
  intro i hi
  rw [getLsbD_getField, getLsbD_getField, getLsbD_setField g v c (by omega), if_neg (by omega)]

/-- A field is what it was set to last; the fields set after it are other bits. -/
theorem unpackConfig_packConfig (c : ConfigFields) : unpackConfig (packConfig c) = c := by
  simp [unpackConfig, packConfig, getField_setField_same, getField_setField_disjoint]

/-- The seven fields leave no bit out, so a word is known by its fields. -/
theorem unpackConfig_injective {v w : Word} (h : unpackConfig v = unpackConfig w) : v = w := by
  have hbit : ∀ f ∈ configFields, ∀ i, f.lo ≤ i → i < f.lo + f.width → v.getLsbD i = w.getLsbD i := by
    intro f hf i hlo hhi
    have hfield : getField f v = getField f w := by
      simp only [unpackConfig, ConfigFields.mk.injEq] at h
      fin_cases hf <;> simp [h]
    have hb := getLsbD_getField f v (i - f.lo)
    rw [hfield, getLsbD_getField, Nat.add_sub_cancel' hlo] at hb
    simpa [show i - f.lo < f.width by omega] using hb.symm
  apply BitVec.eq_of_getLsbD_eq
  intro i hi
  obtain ⟨f, hf, hlo, hhi⟩ : ∃ f ∈ configFields, f.lo ≤ i ∧ i < f.lo + f.width := by
    revert i; decide
  exact hbit f hf i hlo hhi

theorem packConfig_unpackConfig (v : Word) : packConfig (unpackConfig v) = v :=
  unpackConfig_injective (unpackConfig_packConfig _)

/-- Settles O21: the fields set are the fields read, and a word is known by its fields. -/
theorem configWordRoundTrip : Obligations.ConfigWordRoundTrip :=
  ⟨packConfig_unpackConfig, unpackConfig_packConfig⟩

/-! ## The tables of the fields (R63 to R68) -/

theorem encBrng_decBrng : ∀ c, encBrng (.int (decBrng c)) = some c := by decide

theorem encPg_decPg : ∀ c, encPg (.int (decPg c)) = some c := by decide

theorem encMode_decMode : ∀ c, encMode (.sym (decMode c)) = some c := by decide

/-- Settles O22: the tables row by row, and the three that are bijective. -/
theorem enumerationTables : Obligations.EnumerationTables :=
  ⟨rfl, rfl, rfl, rfl, rfl, encBrng_decBrng, encPg_decPg, encMode_decMode⟩

/-- The code of an ADC setter's operands decodes to them, and no smaller code does: row by row of R67. -/
theorem encAdc_eq_some {a b : Operand} {c : BitVec 4} (h : encAdc a b = some c) :
    a = .int (decAdc c).1 ∧ b = .int (decAdc c).2 ∧ ∀ c', decAdc c' = decAdc c → c.toNat ≤ c'.toNat := by
  unfold encAdc at h
  split at h
  case h_12 => cases h
  all_goals
    cases h
    exact ⟨rfl, rfl, by decide⟩

theorem encAdc_decAdc_isSome : ∀ c, (encAdc (.int (decAdc c).1) (.int (decAdc c).2)).isSome = true := by decide

/-- Settles O23: the duplicates by the table of R65, the setters' codes by the table of R67. -/
theorem adcDuplicatesAndSmallestCode : Obligations.AdcDuplicatesAndSmallestCode :=
  ⟨by decide, fun _ _ _ => encAdc_eq_some, encAdc_decAdc_isSome⟩

/-! ## The invalid shunt patterns (R71, R128) -/

theorem getLsbD_eq_getLsbD_iff (v : Word) (i j : Nat) :
    v.getLsbD i = v.getLsbD j ↔ v.toNat / 2 ^ i % 2 = v.toNat / 2 ^ j % 2 := by
  simp only [BitVec.getLsbD, Nat.testBit_eq_decide_div_mod_eq, decide_eq_decide]
  omega

/-- At 13 significant bits, bits 13 and 14 are pads: of the eight blocks of 2^13 patterns only the first and the last
have equal bits 13 to 15. -/
theorem padBitsMatch_13_eq_false (raw : Word) :
    padBitsMatch 13 raw = false ↔ 0x1FFF < raw.toNat ∧ raw.toNat < 0xE000 := by
  have hpad : padBitsMatch 13 raw = true ↔ raw.getLsbD 13 = raw.getLsbD 15 ∧ raw.getLsbD 14 = raw.getLsbD 15 := by
    simp [padBitsMatch, List.range']
  have hlt := raw.isLt
  have hblock : (0x1FFF < raw.toNat ∧ raw.toNat < 0xE000) ↔
      1 ≤ raw.toNat / 2 ^ 13 ∧ raw.toNat / 2 ^ 13 ≤ 6 := by omega
  have h14 : raw.toNat / 2 ^ 14 = raw.toNat / 2 ^ 13 / 2 := by omega
  have h15 : raw.toNat / 2 ^ 15 = raw.toNat / 2 ^ 13 / 4 := by omega
  have hq : raw.toNat / 2 ^ 13 < 8 := by omega
  rw [← Bool.not_eq_true, hpad, getLsbD_eq_getLsbD_iff, getLsbD_eq_getLsbD_iff, hblock, h14, h15]
  generalize raw.toNat / 2 ^ 13 = q at hq ⊢
  interval_cases q <;> decide

/-- At 14 significant bits, bit 14 is the one pad. -/
theorem padBitsMatch_14_eq_false (raw : Word) :
    padBitsMatch 14 raw = false ↔ 0x3FFF < raw.toNat ∧ raw.toNat < 0xC000 := by
  have hpad : padBitsMatch 14 raw = true ↔ raw.getLsbD 14 = raw.getLsbD 15 := by
    simp [padBitsMatch]
  have hlt := raw.isLt
  rw [← Bool.not_eq_true, hpad, getLsbD_eq_getLsbD_iff]
  omega

theorem decodeShunt_of_match {gain shift : Nat} {raw : Word} (hg : gainShift gain = some shift)
    (hp : padBitsMatch (16 - shift) raw = true) :
    decodeShunt gain raw = .ok (mulCount (shuntCountOf (16 - shift) raw) cShunt) := by
  simp only [decodeShunt, shuntCount, hg, hp, if_true]

/-- At a gain of the table a pattern is invalid exactly when its pad bits are not all the sign bit. -/
theorem decodeShunt_eq_error_iff {gain shift : Nat} {raw : Word} (hg : gainShift gain = some shift) :
    decodeShunt gain raw = .error .invalidShuntVoltageValue ↔ padBitsMatch (16 - shift) raw = false := by
  cases hp : padBitsMatch (16 - shift) raw with
  | true => simp [decodeShunt_of_match hg hp]
  | false => simp [decodeShunt, shuntCount, hg, hp]

theorem gainShift_eq_none {gain : Nat} (h1 : gain ≠ 1) (h2 : gain ≠ 2) (h4 : gain ≠ 4) (h8 : gain ≠ 8) :
    gainShift gain = none := by
  simp only [gainShift]

theorem decodeShunt_of_no_gain {gain : Nat} (hg : gainShift gain = none) (raw : Word) :
    decodeShunt gain raw = .error .invalidShuntVoltageValue := by
  simp only [decodeShunt, shuntCount, hg]

/-- Settles O40: gains 1 and 2 leave pad bits below the sign bit, gains 4 and 8 none. -/
theorem invalidShuntPatterns : Obligations.InvalidShuntPatterns := by
  unfold Obligations.InvalidShuntPatterns
  intro raw
  refine ⟨?_, ?_, ⟨_, decodeShunt_of_match (shift := 1) rfl rfl⟩,
    ⟨_, decodeShunt_of_match (shift := 0) rfl rfl⟩,
    fun gain h1 h2 h4 h8 => decodeShunt_of_no_gain (gainShift_eq_none h1 h2 h4 h8) raw⟩
  · rw [decodeShunt_eq_error_iff (shift := 3) rfl]
    exact padBitsMatch_13_eq_false raw
  · rw [decodeShunt_eq_error_iff (shift := 2) rfl]
    exact padBitsMatch_14_eq_false raw

/-! ## The responses (R28, R81, R82) -/

/-- The response just written is the last of the record. -/
theorem respond_responsesOk {r : Response} {s : State} (hr : responseOk r = true)
    (hs : s.responses.all responseOk = true) : (respond r s).ResponsesOk :=
  ⟨by simp only [respond_responses, List.all_append, hs, List.all_cons, hr, List.all_nil, Bool.and_true],
    .inr (by simp)⟩

theorem setRefused_responsesOk {s : State} (h : s.ResponsesOk) : { s with refused := true }.ResponsesOk :=
  ⟨h.all, h.last⟩

theorem setFaulted_responsesOk {s : State} (c : FaultCause) (h : s.ResponsesOk) :
    { s with faulted := true, faultCause := some c }.ResponsesOk :=
  ⟨h.all, h.last⟩

theorem setInbox_responsesOk {s : State} (moves : List HostMove) (h : s.ResponsesOk) :
    { s with inbox := moves }.ResponsesOk :=
  ⟨h.all, h.last⟩

/-- A block reset keeps the record and holds no response. -/
theorem blockReset_responsesOk {s : State} (h : s.ResponsesOk) : (blockReset s).ResponsesOk :=
  ⟨h.all, .inl rfl⟩

theorem exec_keeps_responsesOk {i : Instr} {s t : State} (hs : s.ResponsesOk) (h : exec i s = .next t) :
    t.ResponsesOk := by
  cases exec_ending h with
  | refused _ e => exact e ▸ setRefused_responsesOk hs
  | faulted _ _ e => exact e ▸ setFaulted_responsesOk _ hs
  | responded u v evs r _ calls _ _ ctx e ok =>
    obtain ⟨-, -, hresponses, -⟩ := ctx.keeps_record calls
    exact e ▸ respond_responsesOk ok (hresponses ▸ hs.all)

theorem step_keeps_responsesOk {s t : State} (hs : s.ResponsesOk) (h : step s = .next t) : t.ResponsesOk := by
  rcases step_next_cases h with ⟨_, rfl⟩ | ⟨rest, _, rfl⟩ | ⟨c, rest, _, rfl | ⟨i, _, hx⟩⟩
  · exact hs
  · exact blockReset_responsesOk (setInbox_responsesOk rest hs)
  · exact setRefused_responsesOk (setInbox_responsesOk rest hs)
  · exact exec_keeps_responsesOk (setInbox_responsesOk rest hs) hx

/-- Settles O56: the invariant by the four kinds of step, the status numbers by the table of R82. -/
theorem stepKeepsResponsesWellFormed : Obligations.StepKeepsResponsesWellFormed :=
  ⟨fun _ _ => step_keeps_responsesOk, fun _ => rfl, fun _ => rfl, by decide, by decide,
    by simp [errorResponse, infoStatus], fun _ => rfl⟩

end Sys2Proof.Machine
end

section
/-! SUPPORT. Proofs of the statements of spec/40_config_codec.md: the field update, the getters, and RESET with the
setters. A setter and RESET are a read of register 0 and a write of a word made of the word read
(`ReadModifyWrites`), a getter is a read and a value of the word read (`ReadsValue`); the outcomes, the three calls and
the mock store's run are then proved once of each of the two shapes. -/

namespace Sys2Proof.Machine

/-! ## The field update (R100, R101, R104) -/

/-- Every field of the configuration word lies inside it. -/
theorem configFields_fit : ∀ f ∈ configFields, f.lo + f.width ≤ 16 := by decide

theorem setField_outside_mask (f : BitField) (v : Word) (c : BitVec f.width) :
    setField f v c &&& ~~~f.mask = v &&& ~~~f.mask := by
  apply BitVec.eq_of_getLsbD_eq
  intro i hi
  simp only [BitVec.getLsbD_and, BitVec.getLsbD_not, getLsbD_mask f hi, getLsbD_setField f v c hi]
  by_cases hin : f.lo ≤ i ∧ i < f.lo + f.width
  · simp [hin]
  · rw [if_neg hin]

theorem setResetBit_low_bits (v : Word) : setResetBit v &&& 0x7FFF#16 = v &&& 0x7FFF#16 := by
  have hlow : (0x8000#16 &&& 0x7FFF#16 : Word) = 0#16 := by decide
  rw [setResetBit, BitVec.and_or_distrib_right, hlow, BitVec.or_zero]

theorem setResetBit_bit15 (v : Word) : (setResetBit v).getLsbD 15 = true := by
  simp [setResetBit]

/-- Settles O20: the two laws of R101 for a field inside the word, and R104's for bit 15. -/
theorem fieldUpdateLaws : Obligations.FieldUpdateLaws :=
  ⟨fun f hf v c => ⟨getField_setField_same (configFields_fit f hf) v c, setField_outside_mask f v c⟩,
    fun v => ⟨setResetBit_low_bits v, setResetBit_bit15 v⟩⟩

theorem getField_toNat (f : BitField) (v : Word) : (getField f v).toNat = v.toNat / 2 ^ f.lo % 2 ^ f.width := by
  rw [getField, BitVec.toNat_ofNat, Nat.shiftRight_eq_div_pow]

/-- A code shifted to its place loses no bit. -/
theorem ofNat_setWidth_shiftLeft {f : BitField} (hf : f.lo + f.width ≤ 16) {k : Nat} (hk : k < 2 ^ f.width) :
    (BitVec.ofNat f.width k).setWidth 16 <<< f.lo = BitVec.ofNat 16 (k * 2 ^ f.lo) := by
  have hk16 : k < 2 ^ 16 := hk.trans_le (Nat.pow_le_pow_right (by decide) (by omega))
  apply BitVec.eq_of_toNat_eq
  simp only [BitVec.toNat_shiftLeft, BitVec.toNat_setWidth, BitVec.toNat_ofNat, Nat.shiftLeft_eq,
    Nat.mod_eq_of_lt hk, Nat.mod_eq_of_lt hk16]

/-- Setting a field to code `k`, as R101 writes it with masks. -/
theorem setField_ofNat {f : BitField} (hf : f.lo + f.width ≤ 16) {k : Nat} (hk : k < 2 ^ f.width) (v : Word) :
    setField f v (BitVec.ofNat f.width k) = v &&& ~~~f.mask ||| BitVec.ofNat 16 (k * 2 ^ f.lo) := by
  rw [setField, ofNat_setWidth_shiftLeft hf hk]

/-! ## The tables as arithmetic on the code (R63 to R68) -/

theorem decBrng_eq_ite : ∀ c, decBrng c = if c.getLsbD 0 then 32 else 16 := by decide

theorem decPg_eq_two_pow : ∀ c, decPg c = 2 ^ c.toNat := by decide

theorem decAdc_eq_row : ∀ c, decAdc c = (adcSamplesTable.getD c.toNat 0, adcBitsTable.getD c.toNat 0) := by decide

theorem decMode_eq_name : ∀ c, decMode c = modeNames.getD c.toNat "" := by decide

theorem encAdc_of_row :
    ∀ row ∈ adcEncodeTable, row.2 < 2 ^ 4 ∧ encAdc (.int row.1.1) (.int row.1.2) = some (BitVec.ofNat 4 row.2) := by
  decide

theorem encMode_of_index : ∀ k < 8, encMode (.sym (modeNames.getD k "")) = some (BitVec.ofNat 3 k) := by decide

theorem encBrng_eq_none {a : Operand} (h16 : a ≠ .int 16) (h32 : a ≠ .int 32) : encBrng a = none := by
  simp only [encBrng]

theorem encPg_eq_none {a : Operand} (h1 : a ≠ .int 1) (h2 : a ≠ .int 2) (h4 : a ≠ .int 4) (h8 : a ≠ .int 8) :
    encPg a = none := by
  simp only [encPg]

/-- The pairs of R67's table are those with a code. -/
theorem encAdc_eq_none {a b : Operand} (h : ∀ row ∈ adcEncodeTable, ¬ (a = .int row.1.1 ∧ b = .int row.1.2)) :
    encAdc a b = none := by
  cases hc : encAdc a b with
  | none => rfl
  | some c =>
    obtain ⟨ha, hb, -⟩ := encAdc_eq_some hc
    have hrow : ∃ row ∈ adcEncodeTable, a = .int row.1.1 ∧ b = .int row.1.2 := by
      subst ha hb
      revert c
      decide
    obtain ⟨row, hmem, hab⟩ := hrow
    exact absurd hab (h row hmem)

theorem encMode_eq_none {a : Operand} (h : ∀ n ∈ modeNames, a ≠ .sym n) : encMode a = none := by
  rw [encMode_none_iff]
  cases a with
  | sym n => simpa [Operand.isModeName] using fun hn => h n hn rfl
  | _ => rfl

/-! ## The two shapes of a configuration operation (R102, R103) -/

/-- In a ready state the instruction reads register `r` and completes with a value of the word read. -/
def ReadsValue (i : Instr) (r : RegId) (value : Word → Value) : Prop :=
  ∀ s : State, s.Ready → exec i s = withRead r s fun v u => finish (value v) u

/-- In a ready state the instruction reads register 0 and writes back a word made of the word read. -/
def ReadModifyWrites (i : Instr) (newWord : Word → Word) : Prop :=
  ∀ s : State, s.Ready →
    exec i s = withRead .configuration s fun cfg u => finishWrite .configuration (newWord cfg) u

theorem ReadsValue.getterRuns {i : Instr} {r : RegId} {value : Word → Value} (h : ReadsValue i r value) {s : State}
    (hs : s.Ready) : GetterRuns i r value s := by
  intro s1
  refine ⟨fun v hr => ?_, fun e hr => ?_⟩
  · rw [h s hs, withRead_ok hr]
    rfl
  · rw [h s hs, withRead_error hr]
    rfl

theorem ReadModifyWrites.setterRuns {i : Instr} {newWord : Word → Word} (h : ReadModifyWrites i newWord) {s : State}
    (hs : s.Ready) : SetterRuns i newWord s := by
  intro s1
  refine ⟨fun e hr => ?_, fun cfg hr s2 => ⟨fun hw => ?_, fun e hw => ?_⟩⟩
  · rw [h s hs, withRead_error hr]
    rfl
  · rw [h s hs, withRead_ok hr, finishWrite_ok hw]
    rfl
  · rw [h s hs, withRead_ok hr, finishWrite_error hw]
    rfl

/-! ## The getter and the setter of a field -/

/-- The instruction is the getter of the field, with this decoding. -/
def FieldGetter (i : Instr) (f : BitField) (dec : BitVec f.width → Value) : Prop :=
  ∀ s : State, exec i s = accept s (getterOp f dec)

/-- The instruction is the setter of the field, with this code or with none. -/
def FieldSetter (i : Instr) (f : BitField) (code : Option (BitVec f.width)) : Prop :=
  ∀ s : State, exec i s = accept s (setterOp f code)

theorem getBrng_fieldGetter : FieldGetter .getBrng fieldBrng fun c => .int (decBrng c) := fun _ => rfl
theorem getPga_fieldGetter : FieldGetter .getPga fieldPg fun c => .int (decPg c) := fun _ => rfl
theorem getBadc_fieldGetter : FieldGetter .getBadc fieldBadc fun c => .pair (decAdc c).1 (decAdc c).2 := fun _ => rfl
theorem getSadc_fieldGetter : FieldGetter .getSadc fieldSadc fun c => .pair (decAdc c).1 (decAdc c).2 := fun _ => rfl
theorem getMode_fieldGetter : FieldGetter .getMode fieldMode fun c => .sym (decMode c) := fun _ => rfl

theorem setBrng_fieldSetter (a : Operand) : FieldSetter (.setBrng a) fieldBrng (encBrng a) := fun _ => rfl
theorem setPga_fieldSetter (a : Operand) : FieldSetter (.setPga a) fieldPg (encPg a) := fun _ => rfl
theorem setBadc_fieldSetter (a b : Operand) : FieldSetter (.setBadc a b) fieldBadc (encAdc a b) := fun _ => rfl
theorem setSadc_fieldSetter (a b : Operand) : FieldSetter (.setSadc a b) fieldSadc (encAdc a b) := fun _ => rfl
theorem setMode_fieldSetter (a : Operand) : FieldSetter (.setMode a) fieldMode (encMode a) := fun _ => rfl

section
variable {i : Instr} {f : BitField}

theorem FieldGetter.readsValue {dec : BitVec f.width → Value} (h : FieldGetter i f dec) :
    ReadsValue i .configuration fun cfg => dec (getField f cfg) := by
  intro s hs
  rw [h s, accept_of_ready hs]
  rfl

/-- A getter completes with any value of the word read that is its decoding of the field. -/
theorem FieldGetter.getterRuns {dec : BitVec f.width → Value} (h : FieldGetter i f dec) {value : Word → Value}
    (hv : ∀ cfg, dec (getField f cfg) = value cfg) {s : State} (hs : s.Ready) :
    GetterRuns i .configuration value s := by
  rw [← funext hv]
  exact h.readsValue.getterRuns hs

theorem FieldSetter.readModifyWrites {c : BitVec f.width} (h : FieldSetter i f (some c)) :
    ReadModifyWrites i fun cfg => setField f cfg c := by
  intro s hs
  rw [h s, accept_of_ready hs]
  rfl

theorem FieldSetter.faults {code : Option (BitVec f.width)} (h : FieldSetter i f code) (hc : code = none) {s : State}
    (hs : s.Ready) : exec i s = programmingError s := by
  rw [h s, accept_of_ready hs, hc]
  rfl

/-- A setter whose operand has code `k` clears the field and puts `k` in its place. -/
theorem FieldSetter.writesCode {code : Option (BitVec f.width)} (h : FieldSetter i f code) {k : Nat}
    (hc : code = some (BitVec.ofNat f.width k)) (hk : k < 2 ^ f.width) (hf : f ∈ configFields) :
    ReadModifyWrites i fun cfg => cfg &&& ~~~f.mask ||| BitVec.ofNat 16 (k * 2 ^ f.lo) := by
  subst hc
  simpa only [setField_ofNat (configFields_fit f hf) hk] using h.readModifyWrites

/-- A setter whose operand has code 0 clears the field. -/
theorem FieldSetter.clears {code : Option (BitVec f.width)} (h : FieldSetter i f code) (hc : code = some 0#f.width)
    (hf : f ∈ configFields) : ReadModifyWrites i fun cfg => cfg &&& ~~~f.mask := by
  simpa only [Nat.zero_mul, BitVec.or_zero] using h.writesCode (k := 0) hc (Nat.two_pow_pos _) hf

end

/-! ## The getters (R105, R107, R109, R111, R113) -/

/-- Settles O25: the decoded fields as bit 13 and as a power of two. -/
theorem rangeAndGainGetters : Obligations.RangeAndGainGetters := by
  unfold Obligations.RangeAndGainGetters
  intro s hs
  refine ⟨getBrng_fieldGetter.getterRuns (fun cfg => ?_) hs, getPga_fieldGetter.getterRuns (fun cfg => ?_) hs⟩
  · rw [decBrng_eq_ite, getLsbD_getField]
    rfl
  · rw [decPg_eq_two_pow, getField_toNat]
    simp

/-- Settles O26: both fields decode by R65's rows. -/
theorem adcGetters : Obligations.AdcGetters := by
  unfold Obligations.AdcGetters
  intro s hs
  refine ⟨getBadc_fieldGetter.getterRuns (fun cfg => ?_) hs, getSadc_fieldGetter.getterRuns (fun cfg => ?_) hs⟩
  · rw [decAdc_eq_row, getField_toNat]
    rfl
  · rw [decAdc_eq_row, getField_toNat]
    rfl

/-- Settles O27: the field decodes by R68's rows. -/
theorem modeGetter : Obligations.ModeGetter := by
  unfold Obligations.ModeGetter
  intro s hs
  refine getMode_fieldGetter.getterRuns (fun cfg => ?_) hs
  rw [decMode_eq_name, getField_toNat]
  simp

/-! ## RESET and the setters, each with the word it writes (R104, R106, R108, R110, R112, R114) -/

theorem reset_readModifyWrites : ReadModifyWrites .reset fun cfg => cfg ||| 0x8000#16 := by
  intro s hs
  rw [exec, execReset, accept_of_ready hs]
  rfl

theorem setBrng16_readModifyWrites : ReadModifyWrites (.setBrng (.int 16)) fun cfg => cfg &&& 0xDFFF#16 :=
  (setBrng_fieldSetter _).clears rfl (by decide)

theorem setBrng32_readModifyWrites :
    ReadModifyWrites (.setBrng (.int 32)) fun cfg => cfg &&& 0xDFFF#16 ||| 0x2000#16 :=
  (setBrng_fieldSetter _).writesCode (k := 1) rfl (by decide) (by decide)

theorem setPga1_readModifyWrites : ReadModifyWrites (.setPga (.int 1)) fun cfg => cfg &&& 0xE7FF#16 :=
  (setPga_fieldSetter _).clears rfl (by decide)

theorem setPga2_readModifyWrites :
    ReadModifyWrites (.setPga (.int 2)) fun cfg => cfg &&& 0xE7FF#16 ||| 0x0800#16 :=
  (setPga_fieldSetter _).writesCode (k := 1) rfl (by decide) (by decide)

theorem setPga4_readModifyWrites :
    ReadModifyWrites (.setPga (.int 4)) fun cfg => cfg &&& 0xE7FF#16 ||| 0x1000#16 :=
  (setPga_fieldSetter _).writesCode (k := 2) rfl (by decide) (by decide)

theorem setPga8_readModifyWrites :
    ReadModifyWrites (.setPga (.int 8)) fun cfg => cfg &&& 0xE7FF#16 ||| 0x1800#16 :=
  (setPga_fieldSetter _).writesCode (k := 3) rfl (by decide) (by decide)

theorem setBadc_readModifyWrites {row : (Int × Int) × Nat} (h : row ∈ adcEncodeTable) :
    ReadModifyWrites (.setBadc (.int row.1.1) (.int row.1.2))
      fun cfg => cfg &&& 0xF87F#16 ||| BitVec.ofNat 16 (row.2 * 128) :=
  (setBadc_fieldSetter _ _).writesCode (encAdc_of_row row h).2 (encAdc_of_row row h).1 (by decide)

theorem setSadc_readModifyWrites {row : (Int × Int) × Nat} (h : row ∈ adcEncodeTable) :
    ReadModifyWrites (.setSadc (.int row.1.1) (.int row.1.2))
      fun cfg => cfg &&& 0xFF87#16 ||| BitVec.ofNat 16 (row.2 * 8) :=
  (setSadc_fieldSetter _ _).writesCode (encAdc_of_row row h).2 (encAdc_of_row row h).1 (by decide)

theorem setMode_readModifyWrites {k : Nat} (h : k < 8) :
    ReadModifyWrites (.setMode (.sym (modeNames.getD k "")))
      fun cfg => cfg &&& 0xFFF8#16 ||| BitVec.ofNat 16 k := by
  have hmask : ~~~fieldMode.mask = 0xFFF8#16 := by decide
  simpa only [hmask, Nat.pow_zero, Nat.mul_one]
    using (setMode_fieldSetter _).writesCode (encMode_of_index k h) h (by decide)

/-- Settles O24: RESET is a read and a write with bit 15 set. -/
theorem resetOutcomes : Obligations.ResetOutcomes :=
  fun _ hs => reset_readModifyWrites.setterRuns hs

/-- Settles O28: 16 has code 0, 32 has code 1, and no other operand has a code. -/
theorem setBrngOutcomes : Obligations.SetBrngOutcomes :=
  fun _ hs => ⟨setBrng16_readModifyWrites.setterRuns hs, setBrng32_readModifyWrites.setterRuns hs,
    fun a h16 h32 => (setBrng_fieldSetter a).faults (encBrng_eq_none h16 h32) hs⟩

/-- Settles O29: the four gains have codes 0 to 3, and no other operand has a code. -/
theorem setPgaOutcomes : Obligations.SetPgaOutcomes :=
  fun _ hs => ⟨setPga1_readModifyWrites.setterRuns hs, setPga2_readModifyWrites.setterRuns hs,
    setPga4_readModifyWrites.setterRuns hs, setPga8_readModifyWrites.setterRuns hs,
    fun a h1 h2 h4 h8 => (setPga_fieldSetter a).faults (encPg_eq_none h1 h2 h4 h8) hs⟩

/-- Settles O30: the pairs of R67's table have their codes, and no other operands have one. -/
theorem setAdcOutcomes : Obligations.SetAdcOutcomes :=
  fun _ hs => ⟨fun _ hrow => ⟨(setBadc_readModifyWrites hrow).setterRuns hs, (setSadc_readModifyWrites hrow).setterRuns hs⟩,
    fun a b hab => ⟨(setBadc_fieldSetter a b).faults (encAdc_eq_none hab) hs,
      (setSadc_fieldSetter a b).faults (encAdc_eq_none hab) hs⟩⟩

/-- Settles O31: each of the eight names has its place as code, and no other operand has a code. -/
theorem setModeOutcomes : Obligations.SetModeOutcomes :=
  fun _ hs => ⟨fun _ hk => (setMode_readModifyWrites hk).setterRuns hs,
    fun a ha => (setMode_fieldSetter a).faults (encMode_eq_none ha) hs⟩

/-! ## The three calls of a setter (R74, R103, R104) -/

theorem memRead_oracle {s : State} {writes : List WriteAnswer} {reads : List ReadAnswer} {v : Word} (r : RegId)
    (h : s.env = .oracle (.ok :: writes) (.bytes (wordBytes v) :: reads)) :
    memRead r s = (.ok v, { s with
      env := .oracle writes reads
      hist := s.hist ++ [.write s.handle [regByte r] .ok, .read s.handle 2 (.bytes (wordBytes v))] }) := by
  rw [← answerWord_wordBytes v]
  refine memRead_of_selected
    (s1 := { s with
      env := .oracle writes (.bytes (wordBytes v) :: reads)
      hist := s.hist ++ [.write s.handle [regByte r] .ok] }) ?_ ?_
  · simp only [transportWrite, h, envWrite]
  · simp [transportRead, envRead]

theorem memWrite_oracle {s : State} {writes : List WriteAnswer} {reads : List ReadAnswer} (r : WritableReg) (v : Word)
    (h : s.env = .oracle (.ok :: writes) reads) :
    memWrite r v s = (.ok, { s with
      env := .oracle writes reads
      hist := s.hist ++ [.write s.handle (regByte (writableReg r) :: wordBytes v) .ok] }) := by
  simp only [memWrite, transportWrite, h, envWrite]

theorem ReadModifyWrites.threeCalls {i : Instr} {newWord : Word → Word} (h : ReadModifyWrites i newWord) {s : State}
    {writes : List WriteAnswer} {reads : List ReadAnswer} {cfg : Word} (hs : s.Ready)
    (he : s.env = .oracle (.ok :: .ok :: writes) (.bytes (wordBytes cfg) :: reads)) :
    exec i s = .next (respond (okResponse .unit) { s with
      env := .oracle writes reads
      hist := s.hist ++ [.write s.handle [0x00#8] .ok, .read s.handle 2 (.bytes (wordBytes cfg)),
        .write s.handle (0x00#8 :: wordBytes (newWord cfg)) .ok] }) := by
  rw [h s hs, withRead_ok (memRead_oracle .configuration he),
    finishWrite_ok (memWrite_oracle .configuration (newWord cfg) rfl)]
  simp [finish, regByte, writableReg]

/-- Every row of `setterWords` is a read of register 0 and a write of that row's word. -/
theorem setterWords_readModifyWrites : ∀ p ∈ setterWords, ReadModifyWrites p.1 p.2 := by
  intro p hp
  simp only [setterWords, List.mem_append, List.mem_map, List.mem_range] at hp
  obtain ((hp | ⟨row, hrow, rfl⟩) | ⟨row, hrow, rfl⟩) | ⟨k, hk, rfl⟩ := hp
  · simp only [List.mem_cons, List.not_mem_nil, or_false] at hp
    obtain rfl | rfl | rfl | rfl | rfl | rfl | rfl := hp
    · exact reset_readModifyWrites
    · exact setBrng16_readModifyWrites
    · exact setBrng32_readModifyWrites
    · exact setPga1_readModifyWrites
    · exact setPga2_readModifyWrites
    · exact setPga4_readModifyWrites
    · exact setPga8_readModifyWrites
  · exact setBadc_readModifyWrites hrow
  · exact setSadc_readModifyWrites hrow
  · exact setMode_readModifyWrites hk

/-- Settles O32: every row of the table is a read and a write, whose three calls the drawn answers answer. -/
theorem settersIssueThreeCalls : Obligations.SettersIssueThreeCalls :=
  fun _ _ _ _ hs he p hp => (setterWords_readModifyWrites p hp).threeCalls hs he

/-! ## A setter and then its getter under the mock store (R48, R115) -/

/-- A read under the mock store gives the register and changes none. -/
theorem memRead_mockStore {s : State} {m : MockStore} (r : RegId) (he : s.env = .mockStore m) (hf : m.failures = []) :
    memRead r s = (.ok (bankGet m.bank r), { s with
      env := .mockStore { m with sel := r }
      hist := s.hist ++ [.write s.handle [regByte r] .ok,
        .read s.handle 2 (.bytes (wordBytes (bankGet m.bank r)))] }) := by
  have hlookup : ∀ k, m.failures.lookup k = none := fun k => by rw [hf]; rfl
  rw [← answerWord_wordBytes (bankGet m.bank r)]
  refine memRead_of_selected
    (s1 := { s with
      env := .mockStore { m with sel := r }
      hist := s.hist ++ [.write s.handle [regByte r] .ok] }) ?_ ?_
  · simp only [transportWrite, he, envWrite_mockStore, mockWrite_unscripted (hlookup _), mockFrame_select]
  · simp [transportRead, envRead_mockStore, mockRead_unscripted (m := { m with sel := r }) (hlookup _)]

/-- A write under the mock store changes its register. -/
theorem memWrite_mockStore {s : State} {m : MockStore} (r : WritableReg) (v : Word) (he : s.env = .mockStore m)
    (hf : m.failures = []) :
    memWrite r v s = (.ok, { s with
      env := .mockStore { m with bank := bankSet m.bank r v, sel := writableReg r }
      hist := s.hist ++ [.write s.handle (regByte (writableReg r) :: wordBytes v) .ok] }) := by
  have hlookup : ∀ k, m.failures.lookup k = none := fun k => by rw [hf]; rfl
  simp only [memWrite, transportWrite, he, envWrite_mockStore, mockWrite_unscripted (hlookup _), mockFrame_write]

theorem ReadModifyWrites.mockStore {i : Instr} {newWord : Word → Word} (h : ReadModifyWrites i newWord) {s : State}
    {m : MockStore} (hs : s.Ready) (he : s.env = .mockStore m) (hf : m.failures = []) :
    ∃ t m', exec i s = .next t ∧ t.Ready ∧ t.rsp = some (okResponse .unit) ∧ t.env = .mockStore m' ∧
      m'.failures = [] ∧ m'.bank = { m.bank with configuration := newWord m.bank.configuration } := by
  rw [h s hs, withRead_ok (memRead_mockStore .configuration he hf),
    finishWrite_ok (memWrite_mockStore (m := { m with sel := .configuration }) .configuration _ rfl hf)]
  exact ⟨_, _, rfl, hs, rfl, rfl, hf, rfl⟩

theorem ReadsValue.mockStore {i : Instr} {r : RegId} {value : Word → Value} (h : ReadsValue i r value) {s : State}
    {m : MockStore} (hs : s.Ready) (he : s.env = .mockStore m) (hf : m.failures = []) :
    ∃ u, exec i s = .next u ∧ u.rsp = some (okResponse (value (bankGet m.bank r))) ∧ u.bank = some m.bank := by
  rw [h s hs, withRead_ok (memRead_mockStore r he hf)]
  exact ⟨_, rfl, rfl, rfl⟩

/-- The pair is the setter of the field, its operand with code `c`, and the field's getter, to which `c` reads as the
pair's value. -/
structure FieldPair.IsPairOf (p : FieldPair) (f : BitField) (c : BitVec f.width) (dec : BitVec f.width → Value) :
    Prop where
  field : f ∈ configFields
  set : FieldSetter p.set f (some c)
  get : FieldGetter p.get f dec
  value : dec c = p.value
  mask : f.mask = p.mask

/-- The code of every operand in `fieldPairs` decodes to the operand. -/
theorem fieldPairs_isPairOf : ∀ p ∈ fieldPairs, ∃ f c dec, p.IsPairOf f c dec := by
  have hbrng : ∀ v ∈ ([16, 32] : List Int), ∃ c, encBrng (.int v) = some c ∧ decBrng c = v := by decide
  have hpg : ∀ v ∈ ([1, 2, 4, 8] : List Int), ∃ c, encPg (.int v) = some c ∧ decPg c = v := by decide
  have hadc : ∀ r ∈ adcEncodeTable, ∃ c, encAdc (.int r.1.1) (.int r.1.2) = some c ∧
      decAdc c = (r.1.1.toNat, r.1.2.toNat) := by decide
  have hmode : ∀ n ∈ modeNames, ∃ c, encMode (.sym n) = some c ∧ decMode c = n := by decide
  intro p hp
  simp only [fieldPairs, List.mem_append, List.mem_map] at hp
  obtain (((⟨v, hv, rfl⟩ | ⟨v, hv, rfl⟩) | ⟨r, hr, rfl⟩) | ⟨r, hr, rfl⟩) | ⟨n, hn, rfl⟩ := hp
  · obtain ⟨c, henc, hdec⟩ := hbrng v hv
    exact ⟨fieldBrng, c, _, by decide, henc ▸ setBrng_fieldSetter _, getBrng_fieldGetter, by rw [hdec], rfl⟩
  · obtain ⟨c, henc, hdec⟩ := hpg v hv
    exact ⟨fieldPg, c, _, by decide, henc ▸ setPga_fieldSetter _, getPga_fieldGetter, by rw [hdec], rfl⟩
  · obtain ⟨c, henc, hdec⟩ := hadc r hr
    exact ⟨fieldBadc, c, _, by decide, henc ▸ setBadc_fieldSetter _ _, getBadc_fieldGetter, by rw [hdec], rfl⟩
  · obtain ⟨c, henc, hdec⟩ := hadc r hr
    exact ⟨fieldSadc, c, _, by decide, henc ▸ setSadc_fieldSetter _ _, getSadc_fieldGetter, by rw [hdec], rfl⟩
  · obtain ⟨c, henc, hdec⟩ := hmode n hn
    exact ⟨fieldMode, c, _, by decide, henc ▸ setMode_fieldSetter _, getMode_fieldGetter, by rw [hdec], rfl⟩

/-- Settles O33: the setter leaves the word read with the field set, and the getter decodes the field of that word. -/
theorem setThenGetReturnsOperand : Obligations.SetThenGetReturnsOperand := by
  unfold Obligations.SetThenGetReturnsOperand
  intro s m hs he hf p hp
  obtain ⟨f, c, dec, pair⟩ := fieldPairs_isPairOf p hp
  obtain ⟨t, m', hset, ht, hrsp, he', hf', hbank⟩ := pair.set.readModifyWrites.mockStore hs he hf
  obtain ⟨u, hget, hrsp', hbank'⟩ := pair.get.readsValue.mockStore ht he' hf'
  have hread : getField f (bankGet m'.bank .configuration) = c := by
    rw [hbank]
    exact getField_setField_same (configFields_fit f pair.field) _ c
  rw [hread, pair.value] at hrsp'
  refine ⟨t, u, m'.bank, hset, hrsp, hget, hrsp', hbank', by rw [hbank], ?_⟩
  rw [hbank, ← pair.mask]
  exact setField_outside_mask f _ c

end Sys2Proof.Machine
end

section
/-! SUPPORT. Proofs of the statements of spec/41_calibration.md: GET_CAL is a read of register 5 (`ReadsValue`), SET_CAL
is one write of it once the kind and the range have passed, and the two divisors' getters and setters make no call. Both
divisor setters have one shape (`SetsDivisor`), whose two outcomes are proved once. -/

namespace Sys2Proof.Machine

/-! ## The calibration register (R117, R118) -/

theorem getCal_readsValue : ReadsValue .getCal .calibration fun v => .int v.toNat := by
  intro s hs
  rw [exec, execGetCal, accept_of_ready hs]

theorem exec_setCal_of_out_of_range {v : Int} (hv : v < 0 ∨ 65535 < v) {s : State} (hs : s.Ready) :
    exec (.setCal (.int v)) s = raiseError .calOutOfRange s := by
  rw [exec, execSetCal, accept_of_ready hs]
  exact if_pos hv

theorem exec_setCal_of_not_int {a : Operand} (ha : a.isInt = false) {s : State} (hs : s.Ready) :
    exec (.setCal a) s = programmingError s := by
  rw [exec, execSetCal, accept_of_ready hs]
  cases a with
  | int v => simp [Operand.isInt] at ha
  | none | f64 x | sym n | handle h => rfl

/-- The words are exactly the values in range, and each is written as it is. -/
theorem exec_setCal_of_word (w : Word) {s : State} (hs : s.Ready) :
    exec (.setCal (.int w.toNat)) s = finishWrite .calibration w s := by
  have hrange : ¬ ((w.toNat : Int) < 0 ∨ (w.toNat : Int) > 65535) := by
    have := w.isLt
    omega
  have hword : BitVec.ofInt 16 (w.toNat : Int) = w := by
    rw [BitVec.ofInt_natCast, BitVec.ofNat_toNat, BitVec.setWidth_eq]
  rw [exec, execSetCal, accept_of_ready hs]
  simp only [if_neg hrange, hword]

/-- Settles O34: GET_CAL reads register 5 and completes with the word's value. -/
theorem calibrationGetter : Obligations.CalibrationGetter :=
  fun _ hs => getCal_readsValue.getterRuns hs

/-- Settles O35: the kind and the range are checked before the write, and the write's answer ends the operation. -/
theorem setCalOutcomes : Obligations.SetCalOutcomes := by
  unfold Obligations.SetCalOutcomes
  intro s hs
  refine ⟨fun v hv => exec_setCal_of_out_of_range hv hs, fun a ha => exec_setCal_of_not_int ha hs,
    fun w s1 => ⟨fun hw => ?_, fun e hw => ?_⟩⟩
  · rw [exec_setCal_of_word w hs, finishWrite_ok hw]
    rfl
  · rw [exec_setCal_of_word w hs, finishWrite_error hw]
    rfl

/-! ## The divisors (R119 to R122) -/

theorem operandNum_numOperand {d : Num} (hd : numValid d = true) : operandNum (numOperand d) = some d := by
  cases d with
  | int i => rfl
  | f64 x => exact if_pos hd

/-- In a ready state the instruction stores the divisor its operand gives, and faults where the operand gives none. -/
def SetsDivisor (instr : Operand → Instr) (store : Num → State → State) : Prop :=
  ∀ (a : Operand) (s : State), s.Ready →
    exec (instr a) s = (operandNum a).elim (programmingError s) fun d => finish .unit (store d s)

theorem setCdiv_setsDivisor : SetsDivisor .setCdiv fun d s => { s with cdiv := some d } := by
  intro a s hs
  rw [exec, execSetCdiv, accept_of_ready hs]
  cases operandNum a <;> rfl

theorem setPdiv_setsDivisor : SetsDivisor .setPdiv fun d s => { s with pdiv := some d } := by
  intro a s hs
  rw [exec, execSetPdiv, accept_of_ready hs]
  cases operandNum a <;> rfl

section
variable {instr : Operand → Instr} {store : Num → State → State}

theorem SetsDivisor.stores (h : SetsDivisor instr store) {d : Num} (hd : numValid d = true) {s : State} (hs : s.Ready) :
    exec (instr (numOperand d)) s = finish .unit (store d s) := by
  rw [h _ s hs, operandNum_numOperand hd]
  rfl

theorem SetsDivisor.faults (h : SetsDivisor instr store) {a : Operand} (ha : a.isNum = false) {s : State}
    (hs : s.Ready) : exec (instr a) s = programmingError s := by
  rw [h a s hs, (operandNum_none_iff a).2 ha]
  rfl

end

theorem exec_getCdiv_of_stored {d : Num} {s : State} (hd : s.cdiv = some d) (hs : s.Ready) :
    exec .getCdiv s = finish (.num d) s := by
  rw [exec, execGetCdiv, accept_of_ready hs, hd]
  rfl

theorem exec_getPdiv_of_stored {d : Num} {s : State} (hd : s.pdiv = some d) (hs : s.Ready) :
    exec .getPdiv s = finish (.num d) s := by
  rw [exec, execGetPdiv, accept_of_ready hs, hd]
  rfl

/-- Settles O36: a getter returns the stored divisor, and a setter stores what its operand gives or faults. -/
theorem divisorGettersAndSetters : Obligations.DivisorGettersAndSetters := by
  unfold Obligations.DivisorGettersAndSetters
  intro s hs
  exact ⟨fun d hd => exec_getCdiv_of_stored hd hs, fun d hd => exec_getPdiv_of_stored hd hs,
    fun d hd => ⟨setCdiv_setsDivisor.stores hd hs, setPdiv_setsDivisor.stores hd hs⟩,
    fun a ha => ⟨setCdiv_setsDivisor.faults ha hs, setPdiv_setsDivisor.faults ha hs⟩⟩

end Sys2Proof.Machine
end

section
/-! SUPPORT. Proofs of the statements of spec/42_measurement.md. The rounding first: every binary64 value lies on a grid
of rationals (`OnGrid`), a packed significand is nearest among the whole grid (`Rounding.nearest`), so `fl64`, a product
and a quotient are each one rounding of their exact rational (`F64.Rounds`). Then the measurement decoder: the shunt
count is the sign extension, `scale` divides by the converted divisor, and each operation is its reads followed by its
decode. -/

namespace Sys2Proof

/-! ## The values of binary64 as a grid of rationals (log 10) -/

/-- A rational with a significand of at most 53 bits, in steps no finer than the subnormal one: a binary64 value if the
exponent had no upper end. -/
def OnGrid (v : ℚ) : Prop := ∃ z u : ℤ, v = z * (2 : ℚ) ^ u ∧ |z| < 2 ^ 53 ∧ -1074 ≤ u

theorem OnGrid.neg {v : ℚ} (h : OnGrid v) : OnGrid (-v) := by
  obtain ⟨z, u, rfl, hz, hu⟩ := h
  exact ⟨-z, u, by push_cast; ring, by rwa [abs_neg], hu⟩

theorem onGrid_intCast {z : ℤ} (h : |z| < 2 ^ 53) : OnGrid z :=
  ⟨z, 0, by simp, h, by norm_num⟩

theorem F64.significand_lt (x : F64) : x.significand < 2 ^ 53 := by
  have hf : x.fraction < 2 ^ 52 := Nat.mod_lt _ (by norm_num)
  unfold F64.significand
  split <;> omega

theorem F64.ulpExponent_ge (x : F64) : -1074 ≤ x.ulpExponent := by
  unfold F64.ulpExponent
  split <;> omega

theorem F64.onGrid_absValue (x : F64) : OnGrid x.absValue := by
  refine ⟨x.significand, x.ulpExponent, rfl, ?_, x.ulpExponent_ge⟩
  rw [Nat.abs_cast]
  exact_mod_cast x.significand_lt

theorem F64.onGrid_value (x : F64) : OnGrid x.value := by
  unfold F64.value
  split
  · exact x.onGrid_absValue.neg
  · exact x.onGrid_absValue

/-! ## One rounding of a positive rational -/

/-- The bound lies in the last finite binade. -/
theorem overflowBound_mem_binade :
    (2 : ℚ) ^ (1023 : ℤ) ≤ overflowBound ∧ (overflowBound : ℚ) ≤ (2 : ℚ) ^ (1024 : ℤ) := by
  have h971 : (0 : ℚ) ≤ 2 ^ (971 : ℤ) := by positivity
  rw [overflowBound_cast, show (1023 : ℤ) = 52 + 971 by norm_num, show (1024 : ℤ) = 53 + 971 by norm_num,
    zpow_add₀ two_ne_zero, zpow_add₀ two_ne_zero]
  exact ⟨mul_le_mul_of_nonneg_right (by norm_num) h971, mul_le_mul_of_nonneg_right (by norm_num) h971⟩

/-- A distance counted in steps. -/
theorem abs_sub_eq_scaled (x r : ℚ) (q : ℤ) :
    |x * (2 : ℚ) ^ q - r| = |x - r * (2 : ℚ) ^ (-q)| * (2 : ℚ) ^ q := by
  have hq : (0 : ℚ) < 2 ^ q := by positivity
  rw [← abs_of_pos hq, ← abs_mul, abs_of_pos hq, sub_mul, mul_assoc, ← zpow_add₀ two_ne_zero, neg_add_cancel, zpow_zero,
    mul_one]

/-- `m` counts `r` in steps of `2 ^ q`, `q = k - 1074`, rounded once: what `fl64Magnitude_spec` says of the parts of a
packed magnitude. `e` is the binary exponent of `r`. -/
structure Rounding (r : ℚ) (k m : ℕ) (q e : ℤ) : Prop where
  step : q = (k : ℤ) - 1074
  precision : q = max (e - 52) (-1074)
  lower : (2 : ℚ) ^ e ≤ r
  upper : r < (2 : ℚ) ^ (e + 1)
  le : m ≤ 2 ^ 53
  normal : k = 0 ∨ 2 ^ 52 ≤ m
  near : |(m : ℚ) - r * (2 : ℚ) ^ (-q)| ≤ 1 / 2
  tie : |(m : ℚ) - r * (2 : ℚ) ^ (-q)| = 1 / 2 → m % 2 = 0

theorem exists_rounding {num den : ℕ} (hn : 0 < num) (hd : 0 < den) :
    ∃ k m q e, Rounding ((num : ℚ) / den) k m q e ∧
      fl64Magnitude num den = min (k * 2 ^ 52 + m) (2047 * 2 ^ 52) := by
  obtain ⟨k, m, q, e, h1, h2, hmag, h3, h4, h5, h6, h7, h8⟩ := fl64Magnitude_spec num den hn hd
  exact ⟨k, m, q, e, ⟨h1, h2, h3, h4, h5, h6, h7, h8⟩, hmag⟩

namespace Rounding

variable {r : ℚ} {k m : ℕ} {q e : ℤ}

/-- No whole number of steps is nearer, and another as near makes a tie. -/
theorem nearest_multiple (h : Rounding r k m q e) (n : ℤ) :
    |m * (2 : ℚ) ^ q - r| ≤ |n * (2 : ℚ) ^ q - r| ∧
      (|m * (2 : ℚ) ^ q - r| = |n * (2 : ℚ) ^ q - r| → n ≠ m → m % 2 = 0) := by
  have hq : (0 : ℚ) < 2 ^ q := by positivity
  rw [abs_sub_eq_scaled, abs_sub_eq_scaled]
  rcases eq_or_ne n m with rfl | hne
  · exact ⟨le_of_eq rfl, fun _ hn => absurd rfl hn⟩
  have hfar : (1 : ℚ) ≤ |(n : ℚ) - m| := by
    exact_mod_cast Int.one_le_abs (sub_ne_zero.2 hne)
  have htri := abs_sub_le (n : ℚ) (r * (2 : ℚ) ^ (-q)) m
  rw [abs_sub_comm (r * (2 : ℚ) ^ (-q))] at htri
  have hnear := h.near
  refine ⟨mul_le_mul_of_nonneg_right (by linarith) hq.le, fun heq _ => h.tie ?_⟩
  have := mul_right_cancel₀ hq.ne' heq
  linarith

/-- A grid value is a whole number of steps, or lies below the binade of `r`, whose lower end is nearer. -/
theorem exists_multiple_nearer (h : Rounding r k m q e) {v : ℚ} (hv : OnGrid v) :
    ∃ n : ℤ, v = n * (2 : ℚ) ^ q ∨ |n * (2 : ℚ) ^ q - r| < |v - r| := by
  obtain ⟨z, u, rfl, hz, hu⟩ := hv
  rcases le_or_gt q u with hqu | huq
  · obtain ⟨j, hj⟩ := Int.eq_ofNat_of_zero_le (sub_nonneg.2 hqu)
    refine ⟨z * 2 ^ j, .inl ?_⟩
    rw [show u = j + q by omega, zpow_add₀ two_ne_zero, zpow_natCast]
    push_cast
    ring
  · have hqe : e = 52 + q := by have := h.precision; omega
    have hlow : ((2 ^ 52 : ℤ) : ℚ) * (2 : ℚ) ^ q = 2 ^ e := by
      rw [hqe, zpow_add₀ two_ne_zero]
      norm_num
    have hbelow : z * (2 : ℚ) ^ u < 2 ^ e := by
      calc z * (2 : ℚ) ^ u < 2 ^ 53 * (2 : ℚ) ^ u := by
            gcongr
            exact_mod_cast (abs_lt.1 hz).2
        _ = (2 : ℚ) ^ (53 + u) := by rw [zpow_add₀ two_ne_zero]; norm_num
        _ ≤ 2 ^ e := zpow_le_zpow_right₀ one_le_two (by omega)
    have hr := h.lower
    refine ⟨2 ^ 52, .inr ?_⟩
    rw [hlow, abs_of_nonpos (by linarith), abs_of_nonpos (by linarith)]
    linarith

/-- No grid value is nearer, and another as near makes a tie. -/
theorem nearest (h : Rounding r k m q e) {v : ℚ} (hv : OnGrid v) :
    |m * (2 : ℚ) ^ q - r| ≤ |v - r| ∧ (|m * (2 : ℚ) ^ q - r| = |v - r| → v ≠ m * (2 : ℚ) ^ q → m % 2 = 0) := by
  obtain ⟨n, rfl | hlt⟩ := h.exists_multiple_nearer hv
  · obtain ⟨hle, htie⟩ := h.nearest_multiple n
    exact ⟨hle, fun heq hne => htie heq fun hnm => hne (by rw [hnm, Int.cast_natCast])⟩
  · have hle := (h.nearest_multiple n).1
    exact ⟨by linarith, fun heq => absurd heq (by linarith [heq])⟩

/-- In the last finite binade the significand reaches `2 ^ 53` from half a step below it on: `2 ^ 53 - 1` is odd, so it
loses the tie. -/
theorem carries_iff (h : Rounding r k m q e) :
    2 ^ 53 ≤ m ↔ (18014398509481983 / 2 : ℚ) ≤ r * (2 : ℚ) ^ (-q) := by
  obtain ⟨hlo, hhi⟩ := abs_le.1 h.near
  constructor
  · intro hm
    have : (2 ^ 53 : ℚ) ≤ m := by exact_mod_cast hm
    linarith
  · intro ht
    by_contra hm
    have hm' : (m : ℚ) + 1 ≤ 2 ^ 53 := by exact_mod_cast Nat.lt_of_not_le hm
    have heven := h.tie (by rw [abs_of_nonpos (by linarith)]; linarith)
    have hodd : (m : ℚ) + 1 = 2 ^ 53 := by linarith
    have : m + 1 = 2 ^ 53 := by exact_mod_cast hodd
    omega

/-- The packed magnitude reaches the infinity exactly from the bound on. -/
theorem overflow_iff (h : Rounding r k m q e) : 2047 * 2 ^ 52 ≤ k * 2 ^ 52 + m ↔ (overflowBound : ℚ) ≤ r := by
  obtain ⟨hstep, hprec, hlow, hup, hle, hnormal, -, -⟩ := id h
  obtain ⟨hbound, hbound'⟩ := overflowBound_mem_binade
  rcases lt_trichotomy k 2045 with hk | rfl | hk
  · have hr : r < (2 : ℚ) ^ (1023 : ℤ) := hup.trans_le (zpow_le_zpow_right₀ one_le_two (by omega))
    exact iff_of_false (by omega) (hr.trans_le hbound).not_ge
  · have hq : q = 971 := by omega
    rw [show 2047 * 2 ^ 52 ≤ 2045 * 2 ^ 52 + m ↔ 2 ^ 53 ≤ m by omega, h.carries_iff, hq, overflowBound_cast, zpow_neg,
      ← div_eq_mul_inv, le_div_iff₀ (by positivity)]
  · have hr : (2 : ℚ) ^ (1024 : ℤ) ≤ r := (zpow_le_zpow_right₀ one_le_two (by omega)).trans hlow
    exact iff_of_true (by omega) (hbound'.trans hr)

end Rounding

/-! ## What `fl64` answers -/

/-- A rational with a sign put before it. -/
def signed (neg : Bool) (r : ℚ) : ℚ := if neg then -r else r

theorem abs_signed (neg : Bool) (r : ℚ) : |signed neg r| = |r| := by
  cases neg
  · rfl
  · exact abs_neg r

theorem abs_signed_sub (neg : Bool) (a b : ℚ) : |signed neg a - b| = |a - signed neg b| := by
  cases neg
  · rfl
  · rw [signed, signed, if_pos rfl, if_pos rfl, ← abs_neg]
    ring_nf

theorem signed_signed (neg : Bool) (r : ℚ) : signed neg (signed neg r) = r := by
  cases neg
  · rfl
  · exact neg_neg r

theorem OnGrid.signed {v : ℚ} (h : OnGrid v) (neg : Bool) : OnGrid (signed neg v) := by
  cases neg
  · exact h
  · exact h.neg

theorem F64.value_eq_signed (x : F64) : x.value = signed x.isNeg x.absValue := rfl

/-- `x` is `r` rounded once as R124 says: an infinity exactly from the bound on, else nearest, the even significand on a
tie. -/
structure F64.Rounds (x : F64) (r : ℚ) : Prop where
  overflow : x.isFinite = false ↔ (overflowBound : ℚ) ≤ |r|
  infinite : x.isFinite = false → x = if x.isNeg then 0xFFF0000000000000#64 else 0x7FF0000000000000#64
  nearest : x.isFinite = true → ∀ v, OnGrid v →
    |x.value - r| ≤ |v - r| ∧ (|x.value - r| = |v - r| → v ≠ x.value → x.toNat % 2 = 0)

theorem overflowBound_pos : (0 : ℚ) < overflowBound := lt_of_lt_of_le (by positivity) overflowBound_mem_binade.1

theorem fl64Magnitude_le (num den : ℕ) : fl64Magnitude num den ≤ 2047 * 2 ^ 52 := by
  unfold fl64Magnitude
  split
  · exact Nat.zero_le _
  · exact min_le_right _ _

theorem fl64_isNeg (neg : Bool) (num den : ℕ) : (fl64 neg num den).isNeg = neg :=
  ofSignMagnitude_isNeg neg _ ((fl64Magnitude_le num den).trans_lt (by norm_num))

theorem fl64_zero (neg : Bool) (den : ℕ) : fl64 neg 0 den = F64.ofSignMagnitude neg 0 := rfl

theorem ofSignMagnitude_zero_value (neg : Bool) : (F64.ofSignMagnitude neg 0).value = 0 := by
  have habs : (F64.ofSignMagnitude neg 0).absValue = _ :=
    ofSignMagnitude_absValue neg 0 0 (by norm_num) (.inl rfl) (by norm_num)
  rw [F64.value_eq_signed, habs]
  cases neg <;> simp [signed]

/-- The zero of either sign is zero rounded. -/
theorem fl64_zero_rounds (neg : Bool) (den : ℕ) : (fl64 neg 0 den).Rounds 0 := by
  have hfin : (F64.ofSignMagnitude neg 0).isFinite = true :=
    (ofSignMagnitude_isFinite neg 0 (by norm_num)).2 (by norm_num)
  rw [fl64_zero]
  refine ⟨?_, fun h => absurd (hfin.symm.trans h) (by decide), fun _ v _ => ?_⟩
  · rw [hfin, abs_zero]
    exact iff_of_false (by decide) overflowBound_pos.not_ge
  · rw [ofSignMagnitude_zero_value, sub_zero, sub_zero, abs_zero]
    exact ⟨abs_nonneg v, fun h hv => absurd (abs_eq_zero.1 h.symm) hv⟩

theorem ofSignMagnitude_infinity (neg : Bool) :
    F64.ofSignMagnitude neg (2047 * 2 ^ 52) = if neg then 0xFFF0000000000000#64 else 0x7FF0000000000000#64 := by
  cases neg <;> decide

/-- The packed magnitude of a rounding, under either sign. -/
theorem Rounding.rounds {r : ℚ} {k m : ℕ} {q e : ℤ} (h : Rounding r k m q e) (neg : Bool) :
    (F64.ofSignMagnitude neg (min (k * 2 ^ 52 + m) (2047 * 2 ^ 52))).Rounds (signed neg r) := by
  have hr : 0 < r := lt_of_lt_of_le (by positivity) h.lower
  have hfin := ofSignMagnitude_isFinite neg (min (k * 2 ^ 52 + m) (2047 * 2 ^ 52)) (min_le_right _ _)
  have hneg := ofSignMagnitude_isNeg neg (min (k * 2 ^ 52 + m) (2047 * 2 ^ 52)) (by omega)
  rw [min_lt_iff, or_iff_left (lt_irrefl _)] at hfin
  refine ⟨?_, fun hinf => ?_, fun hx v hv => ?_⟩
  · rw [abs_signed, abs_of_pos hr, ← h.overflow_iff, ← Bool.not_eq_true, hfin, not_lt]
  · rw [← Bool.not_eq_true, hfin, not_lt] at hinf
    rw [hneg, min_eq_right hinf, ofSignMagnitude_infinity]
  · have hlt := hfin.1 hx
    rw [min_eq_left hlt.le] at hneg ⊢
    have hvalue : (F64.ofSignMagnitude neg (k * 2 ^ 52 + m)).value = signed neg (m * (2 : ℚ) ^ q) := by
      rw [F64.value_eq_signed, hneg, ofSignMagnitude_absValue neg k m h.le h.normal hlt, h.step]
    obtain ⟨hle, htie⟩ := h.nearest (hv.signed neg)
    rw [hvalue, abs_signed_sub, signed_signed, abs_sub_comm v, abs_signed_sub, abs_sub_comm r]
    refine ⟨hle, fun heq hne => ?_⟩
    have heven := htie heq fun hs => hne (by rw [← hs, signed_signed])
    rw [ofSignMagnitude_toNat neg _ (by omega)]
    split <;> omega

/-- `fl64` rounds the signed quotient once. -/
theorem fl64_rounds (neg : Bool) (num : ℕ) {den : ℕ} (hd : 0 < den) :
    (fl64 neg num den).Rounds (signed neg ((num : ℚ) / den)) := by
  rcases Nat.eq_zero_or_pos num with rfl | hn
  · have hzero : signed neg (((0 : ℕ) : ℚ) / den) = 0 := by cases neg <;> simp [signed]
    rw [hzero]
    exact fl64_zero_rounds neg den
  · obtain ⟨k, m, q, e, h, hmag⟩ := exists_rounding hn hd
    rw [fl64, hmag]
    exact h.rounds neg

/-- The negative value is the positive one with bit 63 set. -/
theorem ofSignMagnitude_true {mag : ℕ} (h : mag < 2 ^ 63) :
    F64.ofSignMagnitude true mag = F64.ofSignMagnitude false mag ||| 0x8000000000000000#64 := by
  apply BitVec.eq_of_toNat_eq
  rw [BitVec.toNat_or, ofSignMagnitude_toNat true mag h, ofSignMagnitude_toNat false mag h, Nat.or_comm]
  simpa using Nat.two_pow_add_eq_or_of_lt h 1

/-- Settles O37: the nearest and the tie of `Rounds` over the grid, on which every finite binary64 lies. -/
theorem roundingIsNearestTiesToEven : Obligations.RoundingIsNearestTiesToEven := by
  unfold Obligations.RoundingIsNearestTiesToEven
  refine ⟨fun num den hn hd => ?_, fun num den _ => ?_, fun den _ => ⟨rfl, rfl⟩⟩
  · have hr : (0 : ℚ) ≤ (num : ℚ) / den := by positivity
    have hneg := fl64_isNeg false num den
    obtain ⟨hover, hinf, hnear⟩ := fl64_rounds false num hd
    rw [abs_signed, abs_of_nonneg hr] at hover
    rw [hneg] at hinf
    exact ⟨hneg, hover, hinf, fun hx y _ => hnear hx y.value y.onGrid_value⟩
  · exact ofSignMagnitude_true ((fl64Magnitude_le num den).trans_lt (by norm_num))

/-! ## Products and quotients rounded once (R124) -/

theorem signed_xor_mul (a b : Bool) (p q : ℚ) : signed (a ^^ b) (p * q) = signed a p * signed b q := by
  cases a <;> cases b <;> simp [signed]

theorem signed_xor_div (a b : Bool) (p q : ℚ) : signed (a ^^ b) (p / q) = signed a p / signed b q := by
  cases a <;> cases b <;> simp [signed, neg_div, div_neg]

theorem signed_natAbs (n : ℤ) : signed (decide (n < 0)) (n.natAbs : ℚ) = n := by
  rw [signed, Nat.cast_natAbs]
  by_cases h : n < 0
  · simp [h, abs_of_neg h]
  · simp [h, abs_of_nonneg (not_lt.1 h)]

theorem fl64Int_rounds (i : ℤ) : (fl64Int i).Rounds i := by
  have h := fl64_rounds (decide (i < 0)) i.natAbs one_pos
  rwa [Nat.cast_one, div_one, signed_natAbs] at h

theorem mulCount_rounds (n : ℤ) (c : F64) : (mulCount n c).Rounds (n * c.value) := by
  have hmag : ((n.natAbs * c.significand * 2 ^ c.ulpExponent.toNat : ℕ) : ℚ) /
      ((2 ^ (-c.ulpExponent).toNat : ℕ) : ℚ) = n.natAbs * c.absValue := by
    have h := scaled_quotient (n.natAbs * c.significand) 1 (-c.ulpExponent)
    rw [neg_neg, one_mul, Nat.cast_one, div_one] at h
    rw [h, F64.absValue]
    push_cast
    ring
  have h := fl64_rounds (decide (n < 0) ^^ c.isNeg) (n.natAbs * c.significand * 2 ^ c.ulpExponent.toNat)
    (den := 2 ^ (-c.ulpExponent).toNat) (by positivity)
  rwa [hmag, signed_xor_mul, signed_natAbs, ← F64.value_eq_signed] at h

theorem divF64_rounds (x : F64) {y : F64} (hy : 0 < y.significand) : (divF64 x y).Rounds (x.value / y.value) := by
  have hmag := scaled_quotient x.significand y.significand (y.ulpExponent - x.ulpExponent)
  have habs : (x.significand : ℚ) / y.significand * (2 : ℚ) ^ (x.ulpExponent - y.ulpExponent) =
      x.absValue / y.absValue := by
    rw [F64.absValue, F64.absValue, zpow_sub₀ two_ne_zero, mul_div_mul_comm]
  rw [neg_sub, habs] at hmag
  have h := fl64_rounds (x.isNeg ^^ y.isNeg) (x.significand * 2 ^ (x.ulpExponent - y.ulpExponent).toNat)
    (Nat.mul_pos hy (pow_pos two_pos (y.ulpExponent - x.ulpExponent).toNat))
  rwa [hmag, signed_xor_div] at h

namespace F64.Rounds

variable {x y : F64} {r s : ℚ}

theorem isFinite (h : x.Rounds r) (hr : |r| < overflowBound) : x.isFinite = true := by
  rw [← Bool.not_eq_false, h.overflow, not_le]
  exact hr

/-- A grid value below the bound is kept exactly. -/
theorem value_eq_of_onGrid (h : x.Rounds r) (hr : |r| < overflowBound) (hg : OnGrid r) : x.value = r := by
  have hle := (h.nearest (h.isFinite hr) r hg).1
  rw [sub_self, abs_zero] at hle
  exact sub_eq_zero.1 (abs_nonpos_iff.1 hle)

/-- Were the values in the other order, `r` would lie at or above their middle and `s` at or below it. -/
theorem value_le_of_lt (hx : x.Rounds r) (hy : y.Rounds s) (hr : |r| < overflowBound) (hs : |s| < overflowBound)
    (hrs : r < s) : x.value ≤ y.value := by
  by_contra hlt
  have hxr := (hx.nearest (hx.isFinite hr) y.value y.onGrid_value).1
  have hys := (hy.nearest (hy.isFinite hs) x.value x.onGrid_value).1
  have hmid : x.value + y.value ≤ 2 * r := by grind
  have hmid' : 2 * s ≤ x.value + y.value := by grind
  linarith

end F64.Rounds

/-! ## Rounding sees only the quotient -/

theorem floorLog2_mul_right {num den c : ℕ} (hn : 0 < num) (hd : 0 < den) (hc : 0 < c) :
    floorLog2 (num * c) (den * c) = floorLog2 num den := by
  obtain ⟨lo, hi⟩ := floorLog2_spec num den hn hd
  obtain ⟨lo', hi'⟩ := floorLog2_spec (num * c) (den * c) (Nat.mul_pos hn hc) (Nat.mul_pos hd hc)
  have hc' : (c : ℚ) ≠ 0 := by exact_mod_cast hc.ne'
  rw [Nat.cast_mul, Nat.cast_mul, mul_div_mul_right _ _ hc'] at lo' hi'
  have h1 := (zpow_lt_zpow_iff_right₀ (one_lt_two (α := ℚ))).1 (lo.trans_lt hi')
  have h2 := (zpow_lt_zpow_iff_right₀ (one_lt_two (α := ℚ))).1 (lo'.trans_lt hi)
  omega

theorem roundHalfEven_mul_right (n d : ℕ) {c : ℕ} (hc : 0 < c) :
    roundHalfEven (n * c) (d * c) = roundHalfEven n d := by
  have hlt : d * c < 2 * (n % d * c) ↔ d < 2 * (n % d) := by
    rw [← mul_assoc, Nat.mul_lt_mul_right hc]
  have heq : d * c = 2 * (n % d * c) ↔ d = 2 * (n % d) := by
    rw [← mul_assoc, Nat.mul_left_inj hc.ne']
  simp only [roundHalfEven, Nat.mul_mod_mul_right, Nat.mul_div_mul_right _ _ hc, hlt, heq]

theorem roundSignificand_mul_right (num den : ℕ) (q : ℤ) {c : ℕ} (hc : 0 < c) :
    roundSignificand (num * c) (den * c) q = roundSignificand num den q := by
  rw [roundSignificand, mul_right_comm, mul_right_comm den, roundHalfEven_mul_right _ _ hc, ← roundSignificand]

theorem fl64_mul_right (neg : Bool) (num : ℕ) {den c : ℕ} (hd : 0 < den) (hc : 0 < c) :
    fl64 neg (num * c) (den * c) = fl64 neg num den := by
  rcases Nat.eq_zero_or_pos num with rfl | hn
  · rw [Nat.zero_mul, fl64_zero, fl64_zero]
  · have hexp : roundExponent (num * c) (den * c) = roundExponent num den := by
      rw [roundExponent, floorLog2_mul_right hn hd hc, ← roundExponent]
    rw [fl64, fl64, fl64Magnitude, fl64Magnitude, if_neg hn.ne', if_neg (Nat.mul_pos hn hc).ne', hexp]
    simp only [roundSignificand_mul_right num den _ hc]

/-! ## Zero -/

theorem F64.isZero_iff (x : F64) : x.isZero = true ↔ x = 0#64 ∨ x = 0x8000000000000000#64 := by
  have hx := x.isLt
  simp only [F64.isZero, beq_iff_eq, ← BitVec.toNat_inj]
  simp only [BitVec.toNat_ofNat]
  omega

theorem F64.significand_pos {x : F64} (h : x.isZero = false) : 0 < x.significand := by
  have hx := x.isLt
  simp only [F64.isZero, beq_eq_false_iff_ne] at h
  unfold F64.significand
  split
  · rename_i he
    simp only [F64.exponentField] at he
    simp only [F64.fraction]
    omega
  · omega

theorem F64.isFinite_of_isZero {x : F64} (h : x.isZero = true) : x.isFinite = true := by
  rcases x.isZero_iff.1 h with rfl | rfl <;> decide

theorem F64.value_of_isZero {x : F64} (h : x.isZero = true) : x.value = 0 := by
  rcases x.isZero_iff.1 h with rfl | rfl
  · exact ofSignMagnitude_zero_value false
  · exact ofSignMagnitude_zero_value true

/-- Only zero converts to a zero: 1 is nearer to every other integer of its sign. -/
theorem fl64Int_isZero_iff (i : ℤ) : (fl64Int i).isZero = true ↔ i = 0 := by
  refine ⟨fun h => ?_, by rintro rfl; decide⟩
  have hnear := (fl64Int_rounds i).nearest (F64.isFinite_of_isZero h)
  rw [F64.value_of_isZero h, zero_sub, abs_neg] at hnear
  have hsign : |i| ≤ |i.sign - i| := by
    have hone : |i.sign| < 2 ^ 53 := by rcases Int.sign_trichotomy i with h | h | h <;> simp [h]
    exact_mod_cast (hnear _ (onGrid_intCast hone)).1
  rcases lt_trichotomy i 0 with hi | hi | hi
  · rw [Int.sign_eq_neg_one_of_neg hi] at hsign
    grind
  · exact hi
  · rw [Int.sign_eq_one_of_pos hi] at hsign
    grind

theorem fl64Int_isFinite_eq_false_iff (i : ℤ) : (fl64Int i).isFinite = false ↔ overflowBound ≤ i.natAbs := by
  rw [(fl64Int_rounds i).overflow, ← Int.cast_abs, ← Nat.cast_natAbs, Nat.cast_le]

/-- An integer of at most 53 bits converts exactly. -/
theorem fl64Int_value {i : ℤ} (h : |i| < 2 ^ 53) : (fl64Int i).value = i := by
  have hbound : ((2 ^ 53 : ℤ) : ℚ) ≤ overflowBound := by
    calc ((2 ^ 53 : ℤ) : ℚ) = (2 : ℚ) ^ (53 : ℤ) := by norm_num
      _ ≤ (2 : ℚ) ^ (1023 : ℤ) := zpow_le_zpow_right₀ one_le_two (by norm_num)
      _ ≤ overflowBound := overflowBound_mem_binade.1
  refine (fl64Int_rounds i).value_eq_of_onGrid ?_ (onGrid_intCast h)
  exact lt_of_lt_of_le (by exact_mod_cast h) hbound

end Sys2Proof

namespace Sys2Proof.Machine

/-! ## The constants and their products (R124) -/

theorem cShunt_fields : cShunt.isNeg = false ∧ cShunt.significand = 5764607523034235 ∧ cShunt.ulpExponent = -59 := by
  decide

/-- The significand of 0.004 ends in two zero bits. -/
theorem cBus_fields : cBus.isNeg = false ∧ cBus.significand = 1152921504606847 * 2 ^ 2 ∧ cBus.ulpExponent = -60 := by
  decide

theorem cShunt_value : cShunt.value = 5764607523034235 / 2 ^ 59 := by
  obtain ⟨hneg, hsig, hulp⟩ := cShunt_fields
  rw [F64.value_eq_signed, F64.absValue, hneg, hsig, hulp]
  norm_num [signed]

theorem cBus_value : cBus.value = 1152921504606847 / 2 ^ 58 := by
  obtain ⟨hneg, hsig, hulp⟩ := cBus_fields
  rw [F64.value_eq_signed, F64.absValue, hneg, hsig, hulp]
  norm_num [signed]

theorem mulCount_cShunt (n : ℤ) : mulCount n cShunt = fl64 (decide (n < 0)) (n.natAbs * 5764607523034235) (2 ^ 59) := by
  obtain ⟨hneg, hsig, hulp⟩ := cShunt_fields
  rw [mulCount, hneg, hsig, hulp, Bool.xor_false, show (-59 : ℤ).toNat = 0 from rfl,
    show (-(-59) : ℤ).toNat = 59 from rfl, pow_zero, mul_one]

theorem mulCount_cBus (n : ℤ) : mulCount n cBus = fl64 (decide (n < 0)) (n.natAbs * 1152921504606847) (2 ^ 58) := by
  obtain ⟨hneg, hsig, hulp⟩ := cBus_fields
  rw [mulCount, hneg, hsig, hulp, Bool.xor_false, show (-60 : ℤ).toNat = 0 from rfl,
    show (-(-60) : ℤ).toNat = 58 + 2 from rfl, pow_zero, mul_one, ← mul_assoc, pow_add,
    fl64_mul_right _ _ (by positivity) (by positivity)]

/-- Settles O38: a constant's significand and exponent are those of the statement, C_BUS's after removing two zero
bits. -/
theorem scaleConstantsAndProducts : Obligations.ScaleConstantsAndProducts := by
  refine ⟨cShunt_value, cBus_value, fun n => ?_, fun n hn => ?_, fun n _ => ?_⟩
  · rw [mulCount_cShunt, Int.natAbs_natCast, decide_eq_false (by omega)]
  · rw [mulCount_cShunt, Int.natAbs_neg, Int.natAbs_natCast, decide_eq_true (by omega)]
  · rw [mulCount_cBus, Int.natAbs_natCast, decide_eq_false (by omega)]

/-! ## The shunt count (R127, R137) -/

/-- A pattern with a count has a gain of R64's table, its pad bits match, and the count is that of R127. -/
theorem shuntCount_eq_some_iff {gain : ℕ} {raw : Word} {n : ℤ} :
    shuntCount gain raw = some n ↔
      ∃ shift, gainShift gain = some shift ∧ padBitsMatch (16 - shift) raw = true ∧
        shuntCountOf (16 - shift) raw = n := by
  unfold shuntCount
  cases gainShift gain <;> simp

theorem gainShift_eq_some {gain shift : ℕ} (h : gainShift gain = some shift) :
    (gain = 1 ∧ shift = 3) ∨ (gain = 2 ∧ shift = 2) ∨ (gain = 4 ∧ shift = 1) ∨ (gain = 8 ∧ shift = 0) := by
  unfold gainShift at h
  split at h <;> simp_all

theorem getLsbD_15_eq_decide (raw : Word) : raw.getLsbD 15 = decide (2 ^ 15 ≤ raw.toNat) := by
  have := raw.isLt
  rw [BitVec.getLsbD, Nat.testBit_eq_decide_div_mod_eq, decide_eq_decide]
  omega

theorem shuntCountOf_eq (n : ℕ) (raw : Word) :
    shuntCountOf n raw =
      if 2 ^ 15 ≤ raw.toNat then ((raw.toNat % 2 ^ n : ℕ) : ℤ) - 2 ^ n else ((raw.toNat % 2 ^ n : ℕ) : ℤ) := by
  simp only [shuntCountOf, getLsbD_15_eq_decide, decide_eq_true_eq, neg_sub]

theorem word_toInt_eq_ite (raw : Word) :
    raw.toInt = if 2 ^ 15 ≤ raw.toNat then (raw.toNat : ℤ) - 2 ^ 16 else (raw.toNat : ℤ) := by
  rw [BitVec.toInt_eq_toNat_cond]
  split <;> split <;> omega

/-- The pads of gains 1 and 2 leave only patterns whose significant bits are their sign extension's; gains 4 and 8 have
no pad. -/
theorem shuntCountOf_eq_toInt {shift : ℕ} {raw : Word} (hs : shift ≤ 3) (hp : padBitsMatch (16 - shift) raw = true) :
    shuntCountOf (16 - shift) raw = raw.toInt := by
  have hlt := raw.isLt
  rw [← Bool.not_eq_false] at hp
  rw [shuntCountOf_eq, word_toInt_eq_ite]
  interval_cases shift
  · split <;> omega
  · split <;> omega
  · rw [padBitsMatch_14_eq_false] at hp
    split <;> omega
  · rw [padBitsMatch_13_eq_false] at hp
    split <;> omega

/-- Settles O39: the gain is one of R64's table, and the pad bits matched. -/
theorem shuntCountIsSignExtension : Obligations.ShuntCountIsSignExtension := by
  unfold Obligations.ShuntCountIsSignExtension
  intro gain raw n h
  obtain ⟨shift, hg, hp, rfl⟩ := shuntCount_eq_some_iff.1 h
  have hrow := gainShift_eq_some hg
  exact ⟨by omega, shuntCountOf_eq_toInt (by omega) hp⟩

theorem decodeShunt_of_count {gain : ℕ} {raw : Word} {n : ℤ} (h : shuntCount gain raw = some n) :
    decodeShunt gain raw = .ok (mulCount n cShunt) := by
  simp only [decodeShunt, h]

theorem decodeShunt_of_no_count {gain : ℕ} {raw : Word} (h : shuntCount gain raw = none) :
    decodeShunt gain raw = .error .invalidShuntVoltageValue := by
  simp only [decodeShunt, h]

theorem cShunt_value_pos_lt_one : 0 < cShunt.value ∧ cShunt.value < 1 := by
  rw [cShunt_value]
  norm_num

/-- A signed 16-bit count times C_SHUNT is far below the bound. -/
theorem abs_toInt_mul_cShunt_lt (raw : Word) : |(raw.toInt : ℚ) * cShunt.value| < overflowBound := by
  obtain ⟨hpos, hlt⟩ := cShunt_value_pos_lt_one
  have hcount : |(raw.toInt : ℚ)| ≤ 2 ^ 15 := by
    have h1 := BitVec.le_toInt raw
    have h2 := BitVec.toInt_lt (x := raw)
    rw [abs_le]
    constructor
    · exact_mod_cast h1
    · exact_mod_cast h2.le
  calc |(raw.toInt : ℚ) * cShunt.value| = |(raw.toInt : ℚ)| * cShunt.value := by rw [abs_mul, abs_of_pos hpos]
    _ ≤ 2 ^ 15 * 1 := by gcongr
    _ = (2 : ℚ) ^ (15 : ℤ) := by norm_num
    _ < (2 : ℚ) ^ (1023 : ℤ) := zpow_lt_zpow_right₀ one_lt_two (by norm_num)
    _ ≤ overflowBound := overflowBound_mem_binade.1

/-- Settles O41: counts in order have products in order, and rounding keeps strict order; with sign bit 0 the count is
the low bits and is the whole pattern. -/
theorem shuntDecodeMonotoneAndLossless : Obligations.ShuntDecodeMonotoneAndLossless := by
  refine ⟨fun gain raw1 raw2 c1 c2 r1 r2 h1 h2 hle d1 d2 => ?_, fun gain shift raw c hg h h15 => ?_⟩
  · obtain rfl := Except.ok.inj ((decodeShunt_of_count h1).symm.trans d1)
    obtain rfl := Except.ok.inj ((decodeShunt_of_count h2).symm.trans d2)
    obtain rfl := (shuntCountIsSignExtension gain raw1 c1 h1).2
    obtain rfl := (shuntCountIsSignExtension gain raw2 c2 h2).2
    rcases hle.eq_or_lt with heq | hlt
    · rw [heq]
    · exact (mulCount_rounds _ _).value_le_of_lt (mulCount_rounds _ _) (abs_toInt_mul_cShunt_lt raw1)
        (abs_toInt_mul_cShunt_lt raw2) (mul_lt_mul_of_pos_right (by exact_mod_cast hlt) cShunt_value_pos_lt_one.1)
  · have hext := (shuntCountIsSignExtension gain raw c h).2
    obtain ⟨shift', hg', -, hc⟩ := shuntCount_eq_some_iff.1 h
    obtain rfl := Option.some.inj (hg.symm.trans hg')
    rw [getLsbD_15_eq_decide, decide_eq_false_iff_not] at h15
    rw [word_toInt_eq_ite, if_neg h15] at hext
    rw [shuntCountOf_eq, if_neg h15, hext, Nat.cast_inj] at hc
    subst hext
    exact ⟨Int.natCast_nonneg _, by rw [Int.toNat_natCast, hc, BitVec.ofNat_toNat, BitVec.setWidth_eq]⟩

/-! ## The scaled result (R129, R130) -/

section
variable {raw : Word} {d : Num} {w : Which}

theorem scale_eq_zeroDivisor_iff : scale raw d w = .error (.zeroDivisor w) ↔ (numToF64 d).isZero = true := by
  cases hz : (numToF64 d).isZero <;> cases hf : (numToF64 d).isFinite <;> simp [scale, hz, hf]

theorem scale_eq_divisorOutOfRange_iff :
    scale raw d w = .error (.divisorOutOfRange w) ↔ (numToF64 d).isFinite = false := by
  cases hz : (numToF64 d).isZero with
  | true => simp [scale, hz, F64.isFinite_of_isZero hz]
  | false => cases hf : (numToF64 d).isFinite <;> simp [scale, hz, hf]

theorem scale_eq_ok_iff {x : F64} :
    scale raw d w = .ok x ↔
      (numToF64 d).isZero = false ∧ (numToF64 d).isFinite = true ∧
        divF64 (fl64Int raw.toNat) (numToF64 d) = x := by
  cases hz : (numToF64 d).isZero <;> cases hf : (numToF64 d).isFinite <;> simp [scale, hz, hf]

end

/-- Settles O46: what `scale` rejects is a converted divisor that is zero or not finite, and conversion makes neither of
any other integer. -/
theorem scaleRejectsDivisors : Obligations.ScaleRejectsDivisors := by
  unfold Obligations.ScaleRejectsDivisors
  intro raw w
  refine ⟨fun i => scale_eq_zeroDivisor_iff.trans (fl64Int_isZero_iff i),
    fun i => scale_eq_divisorOutOfRange_iff.trans (fl64Int_isFinite_eq_false_iff i),
    fun x => scale_eq_zeroDivisor_iff.trans x.isZero_iff,
    fun x hx h => ?_, fun i h0 hi => ⟨_, scale_eq_ok_iff.2 ⟨?_, ?_, rfl⟩⟩,
    fun y hy h0 h0' => ⟨_, scale_eq_ok_iff.2 ⟨?_, hy, rfl⟩⟩⟩
  · exact absurd (hx.symm.trans (scale_eq_divisorOutOfRange_iff.1 h)) (by decide)
  · exact Bool.eq_false_iff.2 (mt (fl64Int_isZero_iff i).1 h0)
  · exact Bool.eq_true_of_not_eq_false (mt (fl64Int_isFinite_eq_false_iff i).1 hi.not_ge)
  · exact Bool.eq_false_iff.2 (mt y.isZero_iff.1 (not_or.2 ⟨h0, h0'⟩))

theorem fl64Int_word_value (raw : Word) : (fl64Int raw.toNat).value = raw.toNat := by
  have hlt := raw.isLt
  have habs : |(raw.toNat : ℤ)| < 2 ^ 53 := by
    rw [Nat.abs_cast]
    omega
  rw [fl64Int_value habs, Int.cast_natCast]

theorem divF64_fl64Int_word_isNeg (raw : Word) (y : F64) : (divF64 (fl64Int raw.toNat) y).isNeg = y.isNeg := by
  have hraw : (fl64Int raw.toNat).isNeg = false := by
    rw [fl64Int, fl64_isNeg, decide_eq_false (by omega)]
  rw [divF64, fl64_isNeg, hraw, Bool.false_xor]

/-- Settles O47: a raw value converts exactly and its sign bit is 0, so the one rounding is of the exact quotient. -/
theorem scaledResultIsNearestQuotient : Obligations.ScaledResultIsNearestQuotient := by
  refine ⟨fun _ => rfl, fun _ => rfl, fun raw d w x h => ?_⟩
  obtain ⟨hz, -, rfl⟩ := scale_eq_ok_iff.1 h
  have hrounds := divF64_rounds (fl64Int raw.toNat) (F64.significand_pos hz)
  rw [fl64Int_word_value] at hrounds
  exact ⟨divF64_fl64Int_word_isNeg raw _, hrounds.overflow, hrounds.infinite,
    fun hx y _ => hrounds.nearest hx y.value y.onGrid_value⟩

/-! ## The operations (R131 to R136) -/

/-- The gain the configuration word gives, as bits 12 to 11 count it (R64). -/
theorem decPg_fieldPg (cfg : Word) : decPg (getField fieldPg cfg) = 2 ^ (cfg.toNat / 2048 % 4) := by
  rw [decPg_eq_two_pow, getField_toNat]
  rfl

/-- Settles O42: two reads in a row, then the decode at the gain of the first. -/
theorem shuntVoltageOutcomes : Obligations.ShuntVoltageOutcomes := by
  unfold Obligations.ShuntVoltageOutcomes
  intro s s1 hs
  rw [exec, execShuntVoltage, accept_of_ready hs]
  refine ⟨fun e h => withRead_error h _, fun cfg h s2 => ?_⟩
  rw [withRead_ok h, decPg_fieldPg]
  refine ⟨fun e h' => withRead_error h' _, fun raw h' => ?_⟩
  rw [withRead_ok h']
  refine ⟨fun n hn => ?_, fun hn => ?_⟩
  · rw [decodeShunt_of_count hn]
    rfl
  · rw [decodeShunt_of_no_count hn]
    rfl

theorem busVoltage_readsValue :
    ReadsValue .busVoltage .busVoltage fun raw => .f64 (mulCount (raw.toNat / 8 : ℕ) cBus) := by
  intro s hs
  rw [exec, execBusVoltage, accept_of_ready hs]
  rfl

/-- Settles O43: BUS_VOLTAGE reads register 2 and completes with the decoded word. -/
theorem busVoltageOutcomes : Obligations.BusVoltageOutcomes :=
  fun _ => busVoltage_readsValue.getterRuns

theorem flagOp_ok {s s1 : State} {raw : Word} (h : memRead .busVoltage s = (.ok raw, s1)) (flag : Word → Bool) :
    flagOp flag s = finish (.bool (flag raw)) s1 := by
  simp only [flagOp, h]

theorem flagOp_error {s s1 : State} {e : TransportReason} (h : memRead .busVoltage s = (.error e, s1))
    (flag : Word → Bool) : flagOp flag s = finish (.bool false) s1 := by
  simp only [flagOp, h]

theorem cnvr_eq (raw : Word) : cnvr raw = (raw.toNat / 2 % 2 == 1) := by
  rw [cnvr, BitVec.getLsbD, Nat.testBit_eq_decide_div_mod_eq]
  rfl

theorem ovf_eq (raw : Word) : ovf raw = (raw.toNat % 2 == 1) := by
  rw [ovf, BitVec.getLsbD, Nat.testBit_eq_decide_div_mod_eq, pow_zero, Nat.div_one]
  rfl

/-- Settles O44: both flags are bits of the word read, and a failed read is the value false. -/
theorem flagOperationsNeverFail : Obligations.FlagOperationsNeverFail := by
  unfold Obligations.FlagOperationsNeverFail
  intro s s1 hs
  rw [exec, exec, execConvReady, execMathOvf, accept_of_ready hs, accept_of_ready hs]
  refine ⟨fun raw h => ?_, fun e h => ⟨flagOp_error h cnvr, flagOp_error h ovf⟩⟩
  rw [← cnvr_eq, ← ovf_eq]
  exact ⟨flagOp_ok h cnvr, flagOp_ok h ovf⟩

theorem scaledOp_ok {r : RegId} {s s1 : State} {raw : Word} (h : memRead r s = (.ok raw, s1)) (d : Num) (w : Which) :
    scaledOp r (some d) w s = finishF64 (scale raw d w) s1 :=
  withRead_ok h _

theorem scaledOp_error {r : RegId} {s s1 : State} {e : TransportReason} (h : memRead r s = (.error e, s1))
    (d : Option Num) (w : Which) : scaledOp r d w s = raiseError (.transport e) s1 :=
  withRead_error h _

/-- An operation that is `scaledOp` with a stored divisor runs as R135 and R136 say. -/
theorem scaledRuns_of_scaledOp {i : Instr} {r : RegId} {d : Num} {w : Which} {s : State}
    (h : exec i s = scaledOp r (some d) w s) : ScaledRuns i r d w s := by
  intro s1
  rw [h]
  refine ⟨fun raw hr => ?_, fun e hr => scaledOp_error hr _ w⟩
  rw [scaledOp_ok hr]
  exact ⟨fun x hx => hx ▸ rfl, fun j hj => hj ▸ rfl⟩

/-- Settles O45: both operations are `scaledOp`, each with its register and its divisor. -/
theorem scaledOperationOutcomes : Obligations.ScaledOperationOutcomes := by
  unfold Obligations.ScaledOperationOutcomes
  intro s hs
  refine ⟨fun d hd => scaledRuns_of_scaledOp ?_, fun d hd => scaledRuns_of_scaledOp ?_⟩
  · rw [exec, execCurrent, accept_of_ready hs, hd]
  · rw [exec, execPower, accept_of_ready hs, hd]

end Sys2Proof.Machine
end

section
/-! SUPPORT. Proofs of the statements of spec/43_lifecycle.md. Without a device context CONSTRUCT ends as
`constructChecks` says; so what its operands amount to is settled on `constructChecks` alone, check by check in R138's
order, and each of its three outcomes is one rule for `exec`. -/

namespace Sys2Proof.Machine

/-! ## What an operand gives as a divisor (R120) -/

theorem ne_none_of_operandNum_eq_some {x : Operand} {d : Num} (h : operandNum x = some d) : x ≠ .none := by
  rintro rfl
  cases h

theorem exists_operandNum_eq_some {x : Operand} (h : x.isNum = true) : ∃ d, operandNum x = some d :=
  Option.ne_none_iff_exists'.1 (mt (operandNum_none_iff x).1 (ne_false_of_eq_true h))

theorem isNumOrNone_eq_false_iff (x : Operand) : x.isNumOrNone = false ↔ operandNum x = none ∧ x ≠ .none := by
  rw [Operand.isNumOrNone, Bool.or_eq_false_iff, operandNum_none_iff, beq_eq_false_iff_ne]

/-! ## The checks of CONSTRUCT, in their order (R138) -/

section
variable {a b c : Operand} {h : Handle} {d p : Num}

theorem constructChecks_missing_handle : constructChecks .none b c = .missing .missingHandle := rfl

theorem constructChecks_of_not_handle (ha : a.isHandleOrNone = false) : constructChecks a b c = .invalid := by
  cases a with
  | none | handle h => cases ha
  | int i | f64 x | sym n => rfl

theorem constructChecks_missing_cdiv : constructChecks (.handle h) .none c = .missing .missingCurrentDivisor := rfl

theorem constructChecks_of_not_cdiv (hb : b.isNumOrNone = false) : constructChecks (.handle h) b c = .invalid := by
  obtain ⟨hnum, hne⟩ := (isNumOrNone_eq_false_iff b).1 hb
  simp only [constructChecks, if_neg hne, hnum]

theorem constructChecks_missing_pdiv (hb : operandNum b = some d) :
    constructChecks (.handle h) b .none = .missing .missingPowerDivisor := by
  simp only [constructChecks, if_neg (ne_none_of_operandNum_eq_some hb), hb, if_true]

theorem constructChecks_of_not_pdiv (hb : operandNum b = some d) (hc : c.isNumOrNone = false) :
    constructChecks (.handle h) b c = .invalid := by
  obtain ⟨hnum, hne⟩ := (isNumOrNone_eq_false_iff c).1 hc
  simp only [constructChecks, if_neg (ne_none_of_operandNum_eq_some hb), hb, if_neg hne, hnum]

theorem constructChecks_of_divisors (hb : operandNum b = some d) (hc : operandNum c = some p) :
    constructChecks (.handle h) b c = .context h d p := by
  simp only [constructChecks, if_neg (ne_none_of_operandNum_eq_some hb), hb,
    if_neg (ne_none_of_operandNum_eq_some hc), hc]

end

/-! ## CONSTRUCT and RELEASE with no mark set (R138, R139) -/

section
variable {s : State} {a b c : Operand}

theorem exec_construct_of_constructed (hs : s.Clear) (hc : s.constructed = true) :
    exec (.construct a b c) s = raiseError .alreadyConstructed s := by
  rw [exec, execConstruct, acceptAlways_of_clear hs, if_pos hc]

theorem exec_construct_of_missing (hs : s.Clear) (hc : s.constructed = false) {i : Info}
    (hk : constructChecks a b c = .missing i) : exec (.construct a b c) s = raiseError i s := by
  rw [exec, execConstruct, acceptAlways_of_clear hs, hc, if_neg Bool.false_ne_true, hk]

theorem exec_construct_of_invalid (hs : s.Clear) (hc : s.constructed = false)
    (hk : constructChecks a b c = .invalid) : exec (.construct a b c) s = programmingError s := by
  rw [exec, execConstruct, acceptAlways_of_clear hs, hc, if_neg Bool.false_ne_true, hk]

theorem exec_construct_of_context (hs : s.Clear) (hc : s.constructed = false) {h : Handle} {d p : Num}
    (hk : constructChecks a b c = .context h d p) :
    exec (.construct a b c) s =
      finish .unit { s with constructed := true, handle := some h, cdiv := some d, pdiv := some p } := by
  rw [exec, execConstruct, acceptAlways_of_clear hs, hc, if_neg Bool.false_ne_true, hk]

theorem exec_release_of_constructed (hs : s.Clear) (hc : s.constructed = true) :
    exec .release s =
      finish .unit { s with constructed := false, handle := none, cdiv := none, pdiv := none } := by
  rw [exec, execRelease, acceptAlways_of_clear hs, if_pos hc]

theorem exec_release_of_not_constructed (hs : s.Clear) (hc : s.constructed = false) :
    exec .release s = raiseError .notConstructed s := by
  rw [exec, execRelease, acceptAlways_of_clear hs, hc, if_neg Bool.false_ne_true]

end

/-- Settles O13: each clause is one of CONSTRUCT's checks, the earlier ones passed, and ends as that check's outcome. -/
theorem constructOutcomes : Obligations.ConstructOutcomes := by
  unfold Obligations.ConstructOutcomes
  intro s hs
  refine ⟨fun hc a b c => exec_construct_of_constructed hs hc, fun hc => ⟨?_, ?_, ?_, ?_, ?_, ?_, ?_⟩⟩
  · exact fun b c => exec_construct_of_missing hs hc constructChecks_missing_handle
  · exact fun a b c ha => exec_construct_of_invalid hs hc (constructChecks_of_not_handle ha)
  · exact fun h c => exec_construct_of_missing hs hc constructChecks_missing_cdiv
  · exact fun h b c hb => exec_construct_of_invalid hs hc (constructChecks_of_not_cdiv hb)
  · intro h b hb
    obtain ⟨d, hd⟩ := exists_operandNum_eq_some hb
    exact exec_construct_of_missing hs hc (constructChecks_missing_pdiv hd)
  · intro h b c hb hbad
    obtain ⟨d, hd⟩ := exists_operandNum_eq_some hb
    exact exec_construct_of_invalid hs hc (constructChecks_of_not_pdiv hd hbad)
  · exact fun h d p hd hp => exec_construct_of_context hs hc
      (constructChecks_of_divisors (operandNum_numOperand hd) (operandNum_numOperand hp))

/-- Settles O14: RELEASE completes or raises by the one test of R139. -/
theorem releaseOutcomes : Obligations.ReleaseOutcomes :=
  fun _ hs => ⟨exec_release_of_constructed hs, exec_release_of_not_constructed hs⟩

end Sys2Proof.Machine
end

section
/-! SUPPORT. Proofs of the statements of spec/60_exceptions.md: the sticky marks, the device-context checks, the operand
fault and the error result. In a marked state the commands left to run come to one explicit state
(`core_run_of_marked`), which the statement about whole runs reads off. -/

namespace Sys2Proof.Machine

/-! ## The marks refuse every command (R146, R147 step 1) -/

/-- Marks first: a decoded command is refused by its operation's first check, a rejected one as any rejected command. -/
theorem step_of_marked {s : State} {c : Command} {rest : List HostMove} (hin : s.inbox = .command c :: rest)
    (hm : ¬ s.Clear) : step s = .next { s with inbox := rest, refused := true } := by
  cases hd : decode c with
  | ok i => exact (step_of_decoded hin hd).trans (exec_of_marked (s := { s with inbox := rest }) hm i)
  | error r => exact step_of_rejected hin hd

theorem not_clear_of_mark {s : State} (h : s.faulted = true ∨ s.refused = true) : ¬ s.Clear := by
  rintro ⟨hfaulted, hrefused⟩
  simp [hfaulted, hrefused] at h

/-- Settles O8: a step on a command in a marked state. -/
theorem stickyMarksRefuseEveryCommand : Obligations.StickyMarksRefuseEveryCommand :=
  fun _ _ _ hin hmark => step_of_marked hin (not_clear_of_mark hmark)

/-! ## The device-context checks (R143, R147 step 3) -/

/-- Settles O10: CONSTRUCT and RELEASE by their own test of the device context, every other operation by the common
check. -/
theorem deviceContextChecks : Obligations.DeviceContextChecks := by
  unfold Obligations.DeviceContextChecks
  intro s hs
  refine ⟨fun hc i hi => ?_, fun hc a b c => exec_construct_of_constructed hs hc⟩
  by_cases hr : i = .release
  · subst hr
    exact exec_release_of_not_constructed hs hc
  · exact exec_of_not_constructed hs hc i hi hr

/-! ## The operand fault (R79, R144) -/

/-- In a ready state an ill-formed operand is a programming error. The eight operations that read operands are the field
setters, whose operands then have no code, SET_CAL and the divisor setters. -/
theorem exec_of_ill_formed {s : State} {i : Instr} (hs : s.Ready) (hw : i.wellFormed = false)
    (hi : ∀ a b c, i ≠ .construct a b c) : exec i s = programmingError s := by
  cases i with
  | setBrng a => exact (setBrng_fieldSetter a).faults ((encBrng_none_iff a).2 hw) hs
  | setPga a => exact (setPga_fieldSetter a).faults ((encPg_none_iff a).2 hw) hs
  | setBadc a b => exact (setBadc_fieldSetter a b).faults ((encAdc_none_iff a b).2 hw) hs
  | setSadc a b => exact (setSadc_fieldSetter a b).faults ((encAdc_none_iff a b).2 hw) hs
  | setMode a => exact (setMode_fieldSetter a).faults ((encMode_none_iff a).2 hw) hs
  | setCal a => exact exec_setCal_of_not_int hw hs
  | setCdiv a => exact setCdiv_setsDivisor.faults hw hs
  | setPdiv a => exact setPdiv_setsDivisor.faults hw hs
  | construct a b c => exact absurd rfl (hi a b c)
  | reset | getBrng | getPga | getBadc | getSadc | getMode | getCal | getCdiv | getPdiv | shuntVoltage | busVoltage
  | convReady | mathOvf | current | power | release => cases hw

/-- Settles O11: an ill-formed operand is a programming error, whose next state is the one stated. -/
theorem illFormedOperandFaults : Obligations.IllFormedOperandFaults :=
  fun _ _ => exec_of_ill_formed

theorem ContextStep.keeps_faultCause {i : Instr} {s u v : State} {evs : List Event} (ctx : ContextStep i u v)
    (calls : Calls s u evs) : v.faultCause = s.faultCause := by
  rw [ctx.frame, calls.frame]

/-- Settles O12: of the three endings only the fault writes the mark or its cause, and it needs an ill-formed operand. -/
theorem wellFormedNeverFaults : Obligations.WellFormedNeverFaults := by
  unfold Obligations.WellFormedNeverFaults
  intro s t i hw h
  cases exec_ending h with
  | refused _ e =>
    subst e
    exact ⟨rfl, rfl⟩
  | faulted _ w _ => exact absurd w (ne_false_of_eq_true hw)
  | responded u v evs r _ calls _ _ ctx e =>
    subst e
    exact ⟨(ctx.keeps_record calls).1, ctx.keeps_faultCause calls⟩

/-! ## The error result (R149) -/

/-- Settles O49: a refusal and a fault add no response, and an operation that raises an error ends right after its calls,
which change the history and the environment only. -/
theorem errorResultChangesOnlyResponse : Obligations.ErrorResultChangesOnlyResponse := by
  unfold Obligations.ErrorResultChangesOnlyResponse
  intro s t i r h hr hstatus
  cases exec_ending h with
  | refused _ e => simp [e] at hr
  | faulted _ _ e => simp [e] at hr
  | responded u v evs r' _ calls _ _ ctx e _ _ err =>
    obtain ⟨-, -, hresponses, -⟩ := ctx.keeps_record calls
    have hsame : r' = r := by simpa [e, hresponses] using hr
    subst hsame
    rw [e, err hstatus, calls.frame]
    rfl

/-! ## Runs with a mark set (R146, R168) -/

/-- A step takes the host's next move, and no operation touches the moves after it. -/
theorem step_inbox {s t : State} (h : step s = .next t) : t.inbox = s.inbox.tail := by
  rcases step_next_cases h with ⟨hin, rfl⟩ | ⟨rest, hin, rfl⟩ | ⟨c, rest, hin, rfl | ⟨i, _, hx⟩⟩
  · rw [hin, List.tail_nil]
  · rw [hin, List.tail_cons, blockReset_inbox]
  · rw [hin, List.tail_cons]
  · rw [hin, List.tail_cons, (deviceContextFrame _ t i hx).1]

/-- A run of n + 1 steps that ends in a state has a first step that answers a next state. -/
theorem exists_step_of_core_run_succ {n : Nat} {s t : State} (h : core.run (n + 1) s = .next t) :
    ∃ u, step s = .next u ∧ core.run n u = .next t := by
  cases hs : step s with
  | next u => exact ⟨u, rfl, (core_run_succ hs n).symm.trans h⟩
  | fault r | refused r =>
    simp only [Host.Core.run, show core.step s = _ from hs] at h
    cases h

theorem core_run_inbox {n : Nat} {s t : State} (h : core.run n s = .next t) : t.inbox = s.inbox.drop n := by
  induction n generalizing s with
  | zero =>
    cases h
    rfl
  | succ n ih =>
    obtain ⟨u, hu, hrun⟩ := exists_step_of_core_run_succ h
    rw [ih hrun, step_inbox hu, List.drop_tail]

/-- In a marked state the commands left are refused one after the other: nothing changes but the inbox and, if there is
any command at all, the refusal mark. -/
theorem core_run_of_marked {commands : List Command} {s : State} (hin : s.inbox = commands.map .command)
    (hm : ¬ s.Clear) :
    core.run commands.length s = .next { s with inbox := [], refused := s.refused || !commands.isEmpty } := by
  induction commands generalizing s with
  | nil =>
    have hempty : s.inbox = [] := hin
    simp [Host.Core.run, ← hempty]
  | cons c cs ih =>
    have hrest := ih (s := { s with inbox := cs.map .command, refused := true }) rfl (by simp [State.Clear])
    rw [List.length_cons, core_run_succ (step_of_marked hin hm), hrest]
    simp

/-- Settles O60: after the k-th command the commands after it are still to come, and in a marked state they change the
refusal mark only. -/
theorem faultedRunsStayUnsuccessful : Obligations.FaultedRunsStayUnsuccessful := by
  unfold Obligations.FaultedRunsStayUnsuccessful
  intro env commands k t u hk ht hm ⟨hu, hend⟩
  have hin : t.inbox = (commands.drop k).map .command := by
    rw [core_run_inbox ht, List.map_drop]
    rfl
  have hlen : k + (commands.drop k).length = commands.length := by
    rw [List.length_drop]
    omega
  rw [← hlen, core_run_add k _ _ _ ht, core_run_of_marked hin hm] at hu
  cases hu
  have hrefused : t.refused = true → (t.refused || !(commands.drop k).isEmpty) = true := by
    intro h
    rw [h, Bool.true_or]
  refine ⟨fun ⟨_, hfaulted, hclear⟩ => hm ⟨hfaulted, ?_⟩, fun h => ⟨h, rfl⟩, hrefused, rfl, rfl, rfl⟩
  exact (Bool.or_eq_false_iff.1 hclear).1

end Sys2Proof.Machine
end

section
/-! SUPPORT. Proofs of the statements of spec/70_reset_and_hazards.md: the state at reset, the block reset, the calls an
operation makes, and that every run ends. The last needs that an operation in a coherent state answers a next state: each
shared operation does as soon as what follows it does (`Answers`), and coherence gives the divisors that `getDivisorOp` and
`scaledOp` need. -/

namespace Sys2Proof.Machine

/-! ## Reset (R156, R157) -/

/-- Settles O6: the eight fields of S, read off the definition. -/
theorem resetClearsEveryField : Obligations.ResetClearsEveryField :=
  ⟨rfl, rfl, rfl, rfl, rfl, rfl, rfl, rfl⟩

theorem step_of_blockReset {s : State} {rest : List HostMove} (h : s.inbox = .blockReset :: rest) :
    step s = .next (blockReset { s with inbox := rest }) := by
  simp only [step, h, hostMove]

/-- Settles O7: a block reset overwrites all of S, so what is left of the state before it is the record, the environment
and the remaining moves. -/
theorem blockResetStep : Obligations.BlockResetStep :=
  fun _ _ => step_of_blockReset

/-- The start of a run is coherent: its environment and its moves are no part of the device context. -/
theorem startWith_coherent (env : Env) (moves : List HostMove) : (startWith env moves).Coherent :=
  ⟨rfl, rfl, rfl, rfl, rfl, rfl⟩

/-- Settles O54: State.reset is the start with no draw made and no move to come, and its record is empty. -/
theorem resetMeetsInvariants : Obligations.ResetMeetsInvariants :=
  ⟨startWith_coherent (.oracle [] []) [], ⟨rfl, .inl rfl⟩, rfl⟩

/-! ## The calls of an operation (R165) -/

/-- Settles O51: a refusal and a fault make no call and give no response; an operation that responds makes the calls of
its ending, which carries the bound and the exact number. -/
theorem callsPerOperation : Obligations.CallsPerOperation := by
  unfold Obligations.CallsPerOperation
  intro s t i h
  cases exec_ending h with
  | refused _ e | faulted _ _ e =>
    subst e
    exact ⟨[], (List.append_nil _).symm, Nat.zero_le _, fun r hr => by simp at hr⟩
  | responded u v evs r _ calls bound _ ctx e _ hexact =>
    subst e
    obtain ⟨-, -, hresponses, -⟩ := ctx.keeps_record calls
    refine ⟨evs, ctx.keeps_hist.trans calls.hist, bound, fun r' hr hstatus => ?_⟩
    have hsame : r = r' := by simpa [hresponses] using hr
    exact hexact (hsame ▸ hstatus)

/-! ## Every operation answers a next state in a coherent state (R165, R166) -/

/-- The outcome is a next state: the model does not stop. -/
def Answers (x : Result) : Prop := ∃ t, x = .next t

theorem Answers.next (t : State) : Answers (.next t) := ⟨t, rfl⟩

theorem acceptAlways_answers {s : State} {op : State → Result} (h : Answers (op s)) : Answers (acceptAlways s op) := by
  unfold acceptAlways
  split
  · exact .next _
  · exact h

theorem accept_answers {s : State} {op : State → Result} (h : s.constructed = true → Answers (op s)) :
    Answers (accept s op) := by
  refine acceptAlways_answers ?_
  split
  · exact h ‹_›
  · exact .next _

theorem withRead_answers {r : RegId} {s : State} {k : Word → State → Result} (h : ∀ v u, Answers (k v u)) :
    Answers (withRead r s k) := by
  unfold withRead
  split
  · exact h _ _
  · exact .next _

theorem finishWrite_answers (r : WritableReg) (v : Word) (s : State) : Answers (finishWrite r v s) := by
  unfold finishWrite
  split
  · exact .next _
  · exact .next _

/-- RESET, and a configuration setter whose operand has a code. -/
theorem readModifyWrite_answers (f : Word → Word) (s : State) :
    Answers (withRead .configuration s fun v u => finishWrite .configuration (f v) u) :=
  withRead_answers fun v u => finishWrite_answers .configuration (f v) u

theorem getterOp_answers (f : BitField) (dec : BitVec f.width → Value) (s : State) : Answers (getterOp f dec s) :=
  withRead_answers fun _ _ => .next _

theorem setterOp_answers (f : BitField) (code : Option (BitVec f.width)) (s : State) : Answers (setterOp f code s) := by
  cases code with
  | none => exact .next _
  | some c => exact readModifyWrite_answers (fun v => setField f v c) s

theorem flagOp_answers (flag : Word → Bool) (s : State) : Answers (flagOp flag s) := by
  unfold flagOp
  split
  · exact .next _
  · exact .next _

theorem finishF64_answers (x : Except Info F64) (s : State) : Answers (finishF64 x s) := by
  cases x with
  | ok y | error j => exact .next _

theorem scaledOp_answers {d : Option Num} (hd : d.isSome = true) (r : RegId) (w : Which) (s : State) :
    Answers (scaledOp r d w s) := by
  obtain ⟨n, rfl⟩ := Option.isSome_iff_exists.1 hd
  exact withRead_answers fun v u => finishF64_answers (scale v n w) u

theorem getDivisorOp_answers {d : Option Num} (hd : d.isSome = true) (s : State) : Answers (getDivisorOp d s) := by
  obtain ⟨n, rfl⟩ := Option.isSome_iff_exists.1 hd
  exact .next _

theorem execSetCal_answers (a : Operand) (s : State) : Answers (execSetCal a s) := by
  refine accept_answers fun _ => ?_
  cases a with
  | int v =>
    simp only
    split
    · exact .next _
    · exact finishWrite_answers _ _ s
  | none | f64 x | sym n | handle h => exact .next _

theorem execConstruct_answers (a b c : Operand) (s : State) : Answers (execConstruct a b c s) := by
  refine acceptAlways_answers ?_
  split
  · exact .next _
  · cases constructChecks a b c with
    | missing i | invalid | context h d p => exact .next _

theorem execRelease_answers (s : State) : Answers (execRelease s) := by
  refine acceptAlways_answers ?_
  split
  · exact .next _
  · exact .next _

/-- Every operation answers a next state: only the four that use a stored divisor need coherence, which gives both
divisors wherever there is a device context. -/
theorem exec_answers {s : State} (hs : s.Coherent) (i : Instr) : Answers (exec i s) := by
  cases i with
  | reset =>
    rw [exec, execReset]
    exact accept_answers fun _ => readModifyWrite_answers setResetBit s
  | getBrng | getPga | getBadc | getSadc | getMode => exact accept_answers fun _ => getterOp_answers _ _ s
  | getCal | busVoltage =>
    simp only [exec, execGetCal, execBusVoltage]
    exact accept_answers fun _ => withRead_answers fun _ _ => .next _
  | setBrng a | setPga a | setMode a => exact accept_answers fun _ => setterOp_answers _ _ s
  | setBadc a b | setSadc a b => exact accept_answers fun _ => setterOp_answers _ _ s
  | setCal a => exact execSetCal_answers a s
  | getCdiv => exact accept_answers fun hc => getDivisorOp_answers (hs.cdiv.trans hc) s
  | getPdiv => exact accept_answers fun hc => getDivisorOp_answers (hs.pdiv.trans hc) s
  | setCdiv a | setPdiv a =>
    simp only [exec, execSetCdiv, execSetPdiv]
    refine accept_answers fun _ => ?_
    cases operandNum a with
    | none | some d => exact .next _
  | shuntVoltage =>
    rw [exec, execShuntVoltage]
    exact accept_answers fun _ => withRead_answers fun _ _ => withRead_answers fun _ _ => finishF64_answers _ _
  | convReady | mathOvf => exact accept_answers fun _ => flagOp_answers _ s
  | current => exact accept_answers fun hc => scaledOp_answers (hs.cdiv.trans hc) .current .current s
  | power => exact accept_answers fun hc => scaledOp_answers (hs.pdiv.trans hc) .power .power s
  | construct a b c => exact execConstruct_answers a b c s
  | release => exact execRelease_answers s

theorem step_answers {s : State} (hs : s.Coherent) : Answers (step s) := by
  cases hin : s.inbox with
  | nil => exact ⟨s, step_of_waiting hin⟩
  | cons m rest =>
    cases m with
    | blockReset => exact ⟨_, step_of_blockReset hin⟩
    | command c =>
      cases hd : decode c with
      | ok i => exact step_of_decoded hin hd ▸ exec_answers (setInbox_coherent rest hs) i
      | error r => exact ⟨_, step_of_rejected hin hd⟩

/-! ## Runs (R168) -/

/-- What every step keeps, every run keeps. -/
theorem core_run_keeps {P : State → Prop} (hstep : ∀ s t, P s → step s = .next t → P t) {n : Nat} {s t : State}
    (hs : P s) (h : core.run n s = .next t) : P t := by
  induction n generalizing s with
  | zero =>
    cases h
    exact hs
  | succ n ih =>
    obtain ⟨u, hu, hrun⟩ := exists_step_of_core_run_succ h
    exact ih (hstep s u hs hu) hrun

/-- A run from a coherent state stops at no step of it. -/
theorem core_run_answers {s : State} (hs : s.Coherent) (n : Nat) : Answers (core.run n s) := by
  induction n generalizing s with
  | zero => exact .next s
  | succ n ih =>
    obtain ⟨u, hu⟩ := step_answers hs
    rw [core_run_succ hu]
    exact ih (stepKeepsCoherence s u hs hu)

/-- A run of all the moves placed at the start ends with none left, in a coherent state with a legal history. -/
theorem exists_end_of_startWith (env : Env) (moves : List HostMove) : ∃ t,
    core.run moves.length (startWith env moves) = .next t ∧ t.inbox = [] ∧ t.Coherent ∧ transactionsOk t.hist = true := by
  have hstart := startWith_coherent env moves
  obtain ⟨t, ht⟩ := core_run_answers hstart moves.length
  exact ⟨t, ht, (core_run_inbox ht).trans List.drop_length, core_run_keeps stepKeepsCoherence hstart ht,
    core_run_keeps stepKeepsTransactionsLegal rfl ht⟩

/-- Settles O59: a list of commands is a list of host moves of the same length. -/
theorem everyRunEnds : Obligations.EveryRunEnds := by
  refine ⟨fun env commands => ?_, exists_end_of_startWith⟩
  obtain ⟨t, ht, hend, hcoherent, hlegal⟩ := exists_end_of_startWith env (commands.map .command)
  rw [List.length_map] at ht
  exact ⟨t, ⟨ht, hend⟩, hcoherent, hlegal⟩

end Sys2Proof.Machine
end

section
/-! SUPPORT. The proof of the statement that every step of a coherent state answers a next state. -/

namespace Sys2Proof.Machine

/-- Settles O58: coherence gives both divisors wherever there is a device context, so the one stop of the model,
`divisorMissing`, is shut out; a waiting step, a block reset and a rejected command answer in every state. -/
theorem everyStepAnswersNextState : Obligations.EveryStepAnswersNextState := fun _ => step_answers

end Sys2Proof.Machine
end
